-- ==== Sys2Proof/Word.lean ====
section
/-! DEFINITION. The unit's widths: a byte, the 16-bit scalar of frames, and the byte string (00_scope.md R6, R8, R9). -/

namespace Sys2Proof

/-- A byte, and a field element read from one (R8, R30): bit `i` is the coefficient of `t^i`. -/
abbrev Byte := BitVec 8

/-- The 16-bit unsigned scalar of `n`, `k`, `count` and `index` (R6, R46). -/
abbrev U16 := BitVec 16

/-- A byte string, offset 0 first: a command frame, a response frame, or a part of one (R9, R41, R42). -/
abbrev Frame := List Byte

/-- A number as a byte, the low eight bits of it (R8). -/
def byteOf (n : Nat) : Byte := BitVec.ofNat 8 n

end Sys2Proof
end

