-- ==== Sys2Proof/Config.lean ====
section
/-! DEFINITION. What is fixed when the unit is built (10_state.md R25, 00_scope.md R6, R7), and the one free value of the spec, `draw()` (R10, R143). -/

namespace Sys2Proof

/-- `L`, the length in bytes of a raw secret and of a key-share payload (R6). -/
@[simp] abbrev Config.L : Nat := 32

/-- `KS_LEN`, the wire length of a key-share (R6). -/
@[simp] abbrev Config.KS_LEN : Nat := 33

/-- `E`, the length of a sealed envelope (R6). -/
@[simp] abbrev Config.E : Nat := 80

/-- `FS_LEN`, the wire length of a full share (R6). -/
@[simp] abbrev Config.FS_LEN : Nat := 113

/-- `N_MAX`, the largest share count of a split (R6). -/
@[simp] abbrev Config.N_MAX : Nat := 255

/-- `COMBINE_MAX`, the largest number of shares a combine accepts (R6). -/
@[simp] abbrev Config.COMBINE_MAX : Nat := 254

/-- The admissible values of `POLY`, one name for each of the 30 irreducible values of R7.
`Machine/Field.lean`'s `polyBits` gives each its nine bits. -/
inductive ReductionPoly where
  | p11B | p11D | p12B | p12D | p139 | p13F | p14D | p15F | p163 | p165
  | p169 | p171 | p177 | p17B | p187 | p18B | p18D | p19F | p1A3 | p1A9
  | p1B1 | p1BD | p1C3 | p1CF | p1D7 | p1DD | p1E7 | p1F3 | p1F5 | p1F9
  deriving DecidableEq, Repr

/-- The unit as built (R25): `POLY` is the one constant the spec leaves open, so it is a field, and a statement
about every state holds for every admissible value of it (R7, U6; log entry 1). -/
structure Config where
  poly : ReductionPoly
  deriving DecidableEq, Repr

/-- The bytes of `draw()` (R10, R143, U2, U3): the free byte of draw number `n` of a run.
No body: nothing can evaluate it or prove a value of it. UNSAFE only where two runs are compared (log entry 2). -/
opaque Config.freeByte : Nat → Byte

end Sys2Proof
end

