-- ==== Sys2Proof/Syntax.lean ====
section
/-! DEFINITION. The sixteen commands as syntax (30_encoding.md R70 to R75, R80), and the pseudo-commands of R84. -/

namespace Sys2Proof

/-- The kind of share a VALCOMB frame names in its `kind` byte (R75). -/
inductive ShareKind where
  | keyShare
  | fullShare
  deriving DecidableEq, Repr

/-- A command with its operands. Count and length fields of the frame (`k` of FP, `m` of FG, `len`, `count`, `n` of FF)
are the lengths of the lists here: a frame in which they disagree with its length is no command but a BadFrame (R76). -/
inductive Instr where
  /-- `01`, format FA (R104). -/
  | gfadd (a b : Byte)
  /-- `02`, format FA (R105). -/
  | gfmul (a b : Byte)
  /-- `03`, format FB (R106). -/
  | gfinv (a : Byte)
  /-- `10`, format FP: the point and the coefficients, `c[0]` first (R121). -/
  | peval (x : Byte) (c : List Byte)
  /-- `11`, format FS (R124). -/
  | ksplit (n k : U16) (secret : List Byte)
  /-- `20`, format FG: the points `(x_i, y_i)` (R142). -/
  | lagr0 (points : List (Byte × Byte))
  /-- `21`, format FL (R145). -/
  | kcomb (recs : List (List Byte))
  /-- `30`, format FN (R163). -/
  | valsplit (n k : U16)
  /-- `31`, format FV (R165). -/
  | valcomb (kind : ShareKind) (recs : List (List Byte))
  /-- `32`, format FL (R167). -/
  | dedup (recs : List (List Byte))
  /-- `33`, format FK (R168). -/
  | kframe (index : Byte) (payload : List Byte)
  /-- `34`, format FU: one share as supplied (R169). -/
  | kunframe (share : List Byte)
  /-- `40`, format FF (R182). -/
  | fframe (env : List Byte) (keyShares : List (List Byte))
  /-- `41`, format FL (R184). -/
  | funframe (recs : List (List Byte))
  /-- `42`, format FX (R185). -/
  | fsplit (n k : U16) (key env : List Byte)
  /-- `43`, format FL (R186). -/
  | fcomb (recs : List (List Byte))
  deriving DecidableEq, Repr

/-- The sixteen opcodes by name (R80). `Decode.lean`'s `opcodeByte` gives each its byte. -/
inductive Opcode where
  | gfadd | gfmul | gfinv | peval | ksplit | lagr0 | kcomb | valsplit | valcomb | dedup | kframe | kunframe
  | fframe | funframe | fsplit | fcomb
  deriving DecidableEq, Repr

/-- The source's operations that listings use as pseudo-commands (R84). In `createShares` the envelope and the key are
what `Seal` returned outside the unit, between its two commands (R5). -/
inductive PseudoCommand where
  | add (a b : Byte)
  | mul (a b : Byte)
  | inverse (a : Byte)
  | validateSplitParams (n k : U16)
  | validateCombineInput (kind : ShareKind) (shares : List (List Byte))
  | createKeyshares (key : List Byte) (n k : U16)
  | combineKeyshares (shares : List (List Byte))
  | createShares (key env : List Byte) (n k : U16)
  | combineShares (shares : List (List Byte))
  deriving DecidableEq, Repr

end Sys2Proof
end

