-- ==== Sys2Proof/WellFormed.lean ====
section
/-! DEFINITION. Which instruction terms a frame can carry: the lengths of 30_encoding.md R71 to R75 and the widths of
their count fields. What `decode` yields is well-formed; the smoke tests refuse one ill-formed term for each check. -/

namespace Sys2Proof

/-- A list of records fits formats FL and FV (R75): at most 65535 records of at most 255 bytes. -/
def recordsFit (recs : List (List Byte)) : Bool :=
  decide (recs.length ≤ 65535) && recs.all fun r => decide (r.length ≤ 255)

/-- The checks, constructor by constructor (R71 to R75). -/
def wellFormed : Instr → Bool
  | .gfadd _ _ => true
  | .gfmul _ _ => true
  | .gfinv _ => true
  | .peval _ c => decide (c.length ≤ 255)
  | .ksplit _ _ secret => decide (secret.length = Config.L)
  | .lagr0 points => decide (points.length ≤ 255)
  | .kcomb recs => recordsFit recs
  | .valsplit _ _ => true
  | .valcomb _ recs => recordsFit recs
  | .dedup recs => recordsFit recs
  | .kframe _ payload => decide (payload.length = Config.L)
  | .kunframe share => decide (share.length ≤ 255)
  | .fframe env keyShares =>
    decide (env.length = Config.E) && decide (keyShares.length ≤ 65535) &&
      keyShares.all fun ks => decide (ks.length = Config.KS_LEN)
  | .funframe recs => recordsFit recs
  | .fsplit _ _ key env => decide (key.length = Config.L) && decide (env.length = Config.E)
  | .fcomb recs => recordsFit recs

end Sys2Proof
end

