-- ==== Sys2Proof/Machine/Operands.lean ====
section
/-! DEFINITION. Every operand form of the frames: bytes, 16-bit little-endian fields, byte strings, point pairs, key-share
runs and records, each read and written (00_scope.md R9, R10; 20_memory.md R41, R42, R46; 30_encoding.md R71 to R75, R79). -/

namespace Sys2Proof.Machine

/-- `MemRead(addr, n)` (R10, R41): the `n` bytes at offsets `addr .. addr + n - 1` of the command frame.
A decoder reads only offsets that its length check has admitted. -/
def memRead (f : Frame) (addr n : Nat) : Frame := (f.drop addr).take n

/-- `MemWrite(addr, n, v)` (R10, R42): put the bytes of `v` at offsets `addr .. addr + n - 1` of the response frame. -/
def memWrite (f : Frame) (addr : Nat) (v : Frame) : Frame := f.take addr ++ v ++ f.drop (addr + v.length)

/-- `from_u16le` (R9): the byte at the lower offset holds bits 7..0 (R46). -/
def fromU16le (lo hi : Byte) : U16 := BitVec.ofNat 16 (lo.toNat + 256 * hi.toNat)

/-- `u16le` (R9). -/
def u16le (v : U16) : Frame := [v.extractLsb' 0 8, v.extractLsb' 8 8]

/-- The point pairs of format FG (R72): `x_i` then `y_i`. -/
def takePoints : Frame → List (Byte × Byte)
  | x :: y :: rest => (x, y) :: takePoints rest
  | _ => []

/-- The bytes of point pairs (R72). -/
def putPoints (points : List (Byte × Byte)) : Frame := points.flatMap fun p => [p.1, p.2]

/-- `n` strings of `size` bytes, one after the other (the key-shares of format FF, R74). -/
def takeChunks (size : Nat) : Nat → Frame → List Frame
  | 0, _ => []
  | n + 1, bs => bs.take size :: takeChunks size n (bs.drop size)

/-- `count` records (R75), which must end exactly at the end of the frame: a record that runs past the end, and bytes
left after the last record, give nothing. The running offset `o` of R75 is where the remaining bytes start. -/
def takeRecords : Nat → Frame → Option (List Frame)
  | 0, [] => some []
  | 0, _ :: _ => none
  | _ + 1, [] => none
  | n + 1, len :: rest =>
    if len.toNat ≤ rest.length then
      (takeRecords n (rest.drop len.toNat)).map fun recs => rest.take len.toNat :: recs
    else none

/-- One record: its length byte, then its bytes (R75). -/
def putRecord (r : Frame) : Frame := byteOf r.length :: r

/-- Records one after the other (R75). -/
def putRecords (recs : List Frame) : Frame := recs.flatMap putRecord

/-- The `kind` byte of format FV (R75, R81): `0x02` to `0xFF` are reserved. -/
def kindOf (b : Byte) : Option ShareKind :=
  if b = 0x00#8 then some .keyShare else if b = 0x01#8 then some .fullShare else none

/-- The byte of a kind (R75). -/
def kindByte : ShareKind → Byte
  | .keyShare => 0x00#8
  | .fullShare => 0x01#8

/-- The length a share of a kind must have (R75, R165). -/
def expectedLength : ShareKind → Nat
  | .keyShare => Config.KS_LEN
  | .fullShare => Config.FS_LEN

end Sys2Proof.Machine
end

