-- ==== Sys2Proof/Decode.lean ====
section
/-! DEFINITION. From a command frame to a command, total on every byte string, rejecting by name (30_encoding.md R70 to
R76, R80 to R82; 60_exceptions.md R205); and back, from the same tables. -/

namespace Sys2Proof

open Machine

/-- The opcode map (R80). -/
def opcodeByte : Opcode → Byte
  | .gfadd => 0x01#8
  | .gfmul => 0x02#8
  | .gfinv => 0x03#8
  | .peval => 0x10#8
  | .ksplit => 0x11#8
  | .lagr0 => 0x20#8
  | .kcomb => 0x21#8
  | .valsplit => 0x30#8
  | .valcomb => 0x31#8
  | .dedup => 0x32#8
  | .kframe => 0x33#8
  | .kunframe => 0x34#8
  | .fframe => 0x40#8
  | .funframe => 0x41#8
  | .fsplit => 0x42#8
  | .fcomb => 0x43#8

/-- The sixteen opcodes in the order of the table (R80). -/
def allOpcodes : List Opcode :=
  [.gfadd, .gfmul, .gfinv, .peval, .ksplit, .lagr0, .kcomb, .valsplit, .valcomb, .dedup, .kframe, .kunframe,
   .fframe, .funframe, .fsplit, .fcomb]

/-- The opcode a byte names, all eight bits compared (R80, R81). -/
def opcodeOf (b : Byte) : Option Opcode := allOpcodes.find? fun o => opcodeByte o == b

/-- Why a frame is no command (R81, R205). -/
inductive DecodeError where
  /-- Byte 0 is none of the sixteen opcodes (R81). -/
  | illegalOpcode
  /-- The frame is empty, or is not well-formed for its opcode (R76). -/
  | badFrame
  deriving DecidableEq, Repr

/-- The operands of formats FL, FN and so on, by opcode, from the whole frame `f` (offset 0 is the opcode).
`none` is a frame that is not well-formed for its opcode (R76). -/
def decodeOperands (o : Opcode) (f : Frame) : Option Instr :=
  match o, f with
  | .gfadd, [_, a, b] => some (.gfadd a b)
  | .gfmul, [_, a, b] => some (.gfmul a b)
  | .gfinv, [_, a] => some (.gfinv a)
  | .peval, _ :: k :: x :: c => if f.length = 3 + k.toNat then some (.peval x c) else none
  | .ksplit, _ :: n0 :: n1 :: k0 :: k1 :: _ =>
    if f.length = 37 then some (.ksplit (fromU16le n0 n1) (fromU16le k0 k1) (memRead f 5 Config.L)) else none
  | .lagr0, _ :: m :: pts => if f.length = 2 + 2 * m.toNat then some (.lagr0 (takePoints pts)) else none
  | .kcomb, _ :: c0 :: c1 :: body => (takeRecords (fromU16le c0 c1).toNat body).map .kcomb
  | .valsplit, [_, n0, n1, k0, k1] => some (.valsplit (fromU16le n0 n1) (fromU16le k0 k1))
  | .valcomb, _ :: kind :: c0 :: c1 :: body =>
    (kindOf kind).bind fun kd => (takeRecords (fromU16le c0 c1).toNat body).map (.valcomb kd)
  | .dedup, _ :: c0 :: c1 :: body => (takeRecords (fromU16le c0 c1).toNat body).map .dedup
  | .kframe, _ :: index :: _ => if f.length = 34 then some (.kframe index (memRead f 2 Config.L)) else none
  | .kunframe, _ :: len :: share => if f.length = 2 + len.toNat then some (.kunframe share) else none
  | .fframe, _ :: n0 :: n1 :: _ =>
    let n := (fromU16le n0 n1).toNat
    if f.length = 83 + 33 * n then
      some (.fframe (memRead f 3 Config.E) (takeChunks Config.KS_LEN n (f.drop 83)))
    else none
  | .funframe, _ :: c0 :: c1 :: body => (takeRecords (fromU16le c0 c1).toNat body).map .funframe
  | .fsplit, _ :: n0 :: n1 :: k0 :: k1 :: _ =>
    if f.length = 117 then
      some (.fsplit (fromU16le n0 n1) (fromU16le k0 k1) (memRead f 5 Config.L) (memRead f 37 Config.E))
    else none
  | .fcomb, _ :: c0 :: c1 :: body => (takeRecords (fromU16le c0 c1).toNat body).map .fcomb
  | _, _ => none

/-- The decoder: the opcode is checked before the frame length, and an empty frame is a BadFrame (R81). -/
def decode (f : Frame) : Except DecodeError Instr :=
  match f with
  | [] => .error .badFrame
  | op :: _ =>
    match opcodeOf op with
    | none => .error .illegalOpcode
    | some o =>
      match decodeOperands o f with
      | none => .error .badFrame
      | some i => .ok i

/-- The opcode of a command (R80). -/
def opcode : Instr → Opcode
  | .gfadd _ _ => .gfadd
  | .gfmul _ _ => .gfmul
  | .gfinv _ => .gfinv
  | .peval _ _ => .peval
  | .ksplit _ _ _ => .ksplit
  | .lagr0 _ => .lagr0
  | .kcomb _ => .kcomb
  | .valsplit _ _ => .valsplit
  | .valcomb _ _ => .valcomb
  | .dedup _ => .dedup
  | .kframe _ _ => .kframe
  | .kunframe _ => .kunframe
  | .fframe _ _ => .fframe
  | .funframe _ => .funframe
  | .fsplit _ _ _ _ => .fsplit
  | .fcomb _ => .fcomb

/-- The count of a list as the 16-bit field of formats FL, FV and FF (R74, R75). -/
def countField {α : Type} (l : List α) : Frame := u16le (BitVec.ofNat 16 l.length)

/-- The operand bytes of a command, from offset 1 on (R71 to R75). -/
def encodeOperands : Instr → Frame
  | .gfadd a b => [a, b]
  | .gfmul a b => [a, b]
  | .gfinv a => [a]
  | .peval x c => byteOf c.length :: x :: c
  | .ksplit n k secret => u16le n ++ u16le k ++ secret
  | .lagr0 points => byteOf points.length :: putPoints points
  | .kcomb recs => countField recs ++ putRecords recs
  | .valsplit n k => u16le n ++ u16le k
  | .valcomb kind recs => kindByte kind :: countField recs ++ putRecords recs
  | .dedup recs => countField recs ++ putRecords recs
  | .kframe index payload => index :: payload
  | .kunframe share => byteOf share.length :: share
  | .fframe env keyShares => countField keyShares ++ env ++ keyShares.flatten
  | .funframe recs => countField recs ++ putRecords recs
  | .fsplit n k key env => u16le n ++ u16le k ++ key ++ env
  | .fcomb recs => countField recs ++ putRecords recs

/-- The command frame of a command (R70 to R75). -/
def encode (i : Instr) : Frame := opcodeByte (opcode i) :: encodeOperands i

/-- Where `count` records end that start at offset `o` of the bytes `g` (R75). -/
def recordsEnd (g : Nat → Byte) : Nat → Nat → Nat
  | o, 0 => o
  | o, count + 1 => recordsEnd g (o + 1 + (g o).toNat) count

/-- The length a frame's own header implies (R76, R82): from byte 0, then from the count and length fields. A byte that
is no opcode implies a frame of one byte. -/
def impliedLength (g : Nat → Byte) : Nat :=
  match opcodeOf (g 0) with
  | none => 1
  | some .gfadd => 3
  | some .gfmul => 3
  | some .gfinv => 2
  | some .peval => 3 + (g 1).toNat
  | some .ksplit => 37
  | some .lagr0 => 2 + 2 * (g 1).toNat
  | some .kcomb => recordsEnd g 3 (fromU16le (g 1) (g 2)).toNat
  | some .valsplit => 5
  | some .valcomb => recordsEnd g 4 (fromU16le (g 2) (g 3)).toNat
  | some .dedup => recordsEnd g 3 (fromU16le (g 1) (g 2)).toNat
  | some .kframe => 34
  | some .kunframe => 2 + (g 1).toNat
  | some .fframe => 83 + 33 * (fromU16le (g 1) (g 2)).toNat
  | some .funframe => recordsEnd g 3 (fromU16le (g 1) (g 2)).toNat
  | some .fsplit => 117
  | some .fcomb => recordsEnd g 3 (fromU16le (g 1) (g 2)).toNat

/-- The frame whose bits are `w`, bit 0 the least significant bit of byte 0, every bit from `nbits` on zero, as long as
its own header implies (R76). -/
def tableFrame (nbits w : Nat) : Frame :=
  let g : Nat → Byte := fun i => byteOf ((w % 2 ^ nbits) >>> (8 * i))
  (List.range (impliedLength g)).map g

/-- What `decode` reads from the frame whose bits are `w`, numbered as spec/opcode_table.json numbers them. -/
def decodeTableWord (nbits w : Nat) : Option Instr :=
  match decode (tableFrame nbits w) with
  | .ok i => some i
  | .error _ => none

/-- The commands a pseudo-command stands for, in order (R84). -/
def expand : PseudoCommand → List Instr
  | .add a b => [.gfadd a b]
  | .mul a b => [.gfmul a b]
  | .inverse a => [.gfinv a]
  | .validateSplitParams n k => [.valsplit n k]
  | .validateCombineInput kind shares => [.valcomb kind shares]
  | .createKeyshares key n k => [.ksplit n k key]
  | .combineKeyshares shares => [.kcomb shares]
  | .createShares key env n k => [.valsplit n k, .fsplit n k key env]
  | .combineShares shares => [.fcomb shares]

end Sys2Proof
end

