-- ==== Sys2Proof/Machine/Flags.lean ====
section
/-! DEFINITION. The unit has no flags (10_state.md R23): the outcome of a command is the status byte of its response
(30_encoding.md R77, R78; 60_exceptions.md R200 to R205). This file computes it, and the error body behind it. -/

namespace Sys2Proof.Machine

/-- The ten outcomes, a closed enumeration (R77, U13). -/
inductive Status where
  | ok | invalidCount | invalidThreshold | emptyInput | tooManyShares | malformedShare | randomSourceFailure
  | invZero | illegalOpcode | badFrame
  deriving DecidableEq, Repr

/-- The status byte (R77). -/
def statusByte : Status → Byte
  | .ok => 0x00#8
  | .invalidCount => 0x01#8
  | .invalidThreshold => 0x02#8
  | .emptyInput => 0x03#8
  | .tooManyShares => 0x04#8
  | .malformedShare => 0x05#8
  | .randomSourceFailure => 0x06#8
  | .invZero => 0x10#8
  | .illegalOpcode => 0x11#8
  | .badFrame => 0x12#8

/-- An error with the fields it reports: MalformedShare alone has any (R78, R201, R203). -/
inductive Error where
  | invalidCount
  | invalidThreshold
  | emptyInput
  | tooManyShares
  | malformedShare (index : U16) (observed expected : Byte)
  | randomSourceFailure
  | invZero
  | illegalOpcode
  | badFrame
  deriving DecidableEq, Repr

/-- The status of an error (R201 to R205). -/
def errorStatus : Error → Status
  | .invalidCount => .invalidCount
  | .invalidThreshold => .invalidThreshold
  | .emptyInput => .emptyInput
  | .tooManyShares => .tooManyShares
  | .malformedShare _ _ _ => .malformedShare
  | .randomSourceFailure => .randomSourceFailure
  | .invZero => .invZero
  | .illegalOpcode => .illegalOpcode
  | .badFrame => .badFrame

/-- The body of an error response: empty, but for MalformedShare's `index`, `observed`, `expected` (R78, R203). -/
def errorBody : Error → Frame
  | .malformedShare index observed expected => u16le index ++ [observed, expected]
  | .invalidCount => []
  | .invalidThreshold => []
  | .emptyInput => []
  | .tooManyShares => []
  | .randomSourceFailure => []
  | .invZero => []
  | .illegalOpcode => []
  | .badFrame => []

/-- The response frame (R77, R78): the status at offset 0, the body behind it, written with `MemWrite` (R42). -/
def responseFrame (st : Status) (body : Frame) : Frame := memWrite (memWrite [] 0 [statusByte st]) 1 body

end Sys2Proof.Machine
end

