-- ==== Sys2Proof/Machine/Field.lean ====
section
/-! DEFINITION. The three field functions of 40_field.md (R100 to R102), and the two other forms R107 names, kept for
the statements that they are equal. Pure functions: no state. -/

namespace Sys2Proof.Machine

/-- The nine bits of `POLY`, bit 8 set, bit `i` the coefficient of `t^i` (00_scope.md R7). -/
def polyBits : ReductionPoly → BitVec 9
  | .p11B => 0x11B#9
  | .p11D => 0x11D#9
  | .p12B => 0x12B#9
  | .p12D => 0x12D#9
  | .p139 => 0x139#9
  | .p13F => 0x13F#9
  | .p14D => 0x14D#9
  | .p15F => 0x15F#9
  | .p163 => 0x163#9
  | .p165 => 0x165#9
  | .p169 => 0x169#9
  | .p171 => 0x171#9
  | .p177 => 0x177#9
  | .p17B => 0x17B#9
  | .p187 => 0x187#9
  | .p18B => 0x18B#9
  | .p18D => 0x18D#9
  | .p19F => 0x19F#9
  | .p1A3 => 0x1A3#9
  | .p1A9 => 0x1A9#9
  | .p1B1 => 0x1B1#9
  | .p1BD => 0x1BD#9
  | .p1C3 => 0x1C3#9
  | .p1CF => 0x1CF#9
  | .p1D7 => 0x1D7#9
  | .p1DD => 0x1DD#9
  | .p1E7 => 0x1E7#9
  | .p1F3 => 0x1F3#9
  | .p1F5 => 0x1F5#9
  | .p1F9 => 0x1F9#9

/-- The `POLY` of a unit right after reset: the spec's default `0x11B` (R7, D2).
PRESUMED (from general knowledge, as the spec says), unsafe (log entry 1). -/
def defaultPoly : ReductionPoly := .p11B

/-- `gf_add` (R100): bitwise exclusive or. -/
def gfAdd (a b : Byte) : Byte := a ^^^ b

/-- Step 1 of R101: the 15-bit carry-less product, the XOR of `a << i` over the `i` with `b[i] = 1`. -/
def carrylessProduct (a b : Byte) : BitVec 15 :=
  (List.range 8).foldl (fun p i => if b.getLsbD i then p ^^^ (a.setWidth 15 <<< i) else p) 0

/-- One round of step 2 of R101: clear bit `i` of `p` with `POLY << (i - 8)`. -/
def reduceBit (poly : BitVec 9) (p : BitVec 15) (i : Nat) : BitVec 15 :=
  if p.getLsbD i then p ^^^ (poly.setWidth 15 <<< (i - 8)) else p

/-- Step 2 of R101: for `i` from 14 down to 8. -/
def reduceProduct (poly : BitVec 9) (p : BitVec 15) : BitVec 15 :=
  [14, 13, 12, 11, 10, 9, 8].foldl (reduceBit poly) p

/-- `gf_mul` (R101). -/
def gfMul (poly : ReductionPoly) (a b : Byte) : Byte :=
  (reduceProduct (polyBits poly) (carrylessProduct a b)).setWidth 8

/-- Every byte, ascending. -/
def allBytes : List Byte := (List.range 256).map byteOf

/-- `gf_inv` (R102): the byte `b` with `gf_mul(a, b) = 0x01`, a PARTIAL function: it has no value at `0x00` (U1),
since no `b` there has that product. DESIGN CHOICE, safe: found by search (log entry 9). -/
def gfInv (poly : ReductionPoly) (a : Byte) : Option Byte := allBytes.find? fun b => gfMul poly a b == 0x01#8

/-- One of the eight rounds of R107 (a), on `(r, a, b)`. -/
def shiftAddRound (poly : ReductionPoly) (x : Byte × Byte × Byte) : Byte × Byte × Byte :=
  let (r, a, b) := x
  (if b.getLsbD 0 then r ^^^ a else r,
   if a.getLsbD 7 then (a <<< 1) ^^^ (polyBits poly).setWidth 8 else a <<< 1,
   b >>> 1)

/-- The "Russian peasant" form of the product, R107 (a). Not normative; no meaning calls it. -/
def gfMulShiftAdd (poly : ReductionPoly) (a b : Byte) : Byte := ((shiftAddRound poly)^[8] (0x00#8, a, b)).1

/-- `a^j` under `gf_mul`, with `a^0 = 0x01` (R120). -/
def gfPow (poly : ReductionPoly) (a : Byte) : Nat → Byte
  | 0 => 0x01#8
  | j + 1 => gfMul poly (gfPow poly a j) a

end Sys2Proof.Machine
end

