-- ==== Sys2Proof/Machine/State.lean ====
section
/-! DEFINITION. Everything the spec gives the unit that is there between two steps (10_state.md R20 to R29, R35), and why a step
can stop. The unit has no register, program counter, flag, control register, memory, counter or accumulator (R21 to R24,
R29, R215, R217). -/

namespace Sys2Proof.Machine

/-- R28: *busy* from the moment a command frame has been taken until its response has been delivered, else *idle*.
Busy carries the frame of the command that runs (R27), which exists exactly then. -/
inductive Phase where
  | idle
  | busy (frame : Frame)
  deriving DecidableEq, Repr

/-- One answer of the random source to one request (R43): a string of bytes, or `Fail`. -/
inductive RngAnswer where
  | bytes (r : Frame)
  | fail
  deriving DecidableEq, Repr

/-- The unit and what stands on its three ports (R40). -/
structure State where
  /-- R28, with the frame in flight (R27). -/
  phase : Phase
  /-- `CMD` (R41, R50): frames the host has offered and the unit has not taken, oldest first. -/
  cmd : List Frame
  /-- `RSP` (R42, R50): response frames delivered, oldest first. -/
  rsp : List Frame
  /-- `RNG` (R43): answers of the random source not yet consumed, oldest first (log entry 3). -/
  rng : List RngAnswer
  /-- The constant of R25 the spec leaves open, as built (log entry 1). No step changes it. -/
  config : Config
  /-- The model's own: how many free bytes `draw()` has given (R143; log entry 2). -/
  draws : Nat
  deriving DecidableEq, Repr

/-- No step faults, and the type says so: an error of this unit is a response frame (R42, R200, R205, R206). -/
inductive Fault where
  deriving DecidableEq, Repr

/-- Why a step could refuse. -/
inductive Refusal where
  /-- Raised by `exec` alone, for a command that has no meaning in the model yet. Safe. There is none: every row of the
  opcode table has its meaning. -/
  | notModelled (mnemonic : String)
  deriving DecidableEq, Repr

/-- What one step answers on this machine. -/
abbrev Outcome := Host.Outcome State Fault Refusal

/-- Right after reset (R35, R230): idle, no command in flight, no response pending. The ports hold nothing yet (log
entries 3 and 6), `POLY` is the default of R7 (log entry 1) and the model's own counter is zero (log entry 2). -/
def State.reset : State :=
  { phase := .idle, cmd := [], rsp := [], rng := [], config := { poly := defaultPoly }, draws := 0 }

end Sys2Proof.Machine
end

