-- ==== Sys2Proof/Machine/Ops.lean ====
section
/-! DEFINITION. The shared operations: take a frame, deliver a response, `return`, `raise`, ask the random port, `draw()`
(00_scope.md R10; 20_memory.md R42, R43, R50; 60_exceptions.md R206). -/

namespace Sys2Proof.Machine

/-- Deliver a response frame and be idle again (R42, R50, R206). -/
def deliver (r : Frame) (s : State) : State := { s with phase := .idle, rsp := s.rsp ++ [r] }

/-- `return v` (R10): the response is status OK and `v`. -/
def ret (body : Frame) (s : State) : Outcome := .next (deliver (responseFrame .ok body) s)

/-- `raise` (R10, R206): the error response, and nothing else. This is all that taking an exception is on this unit: nothing
is saved, no mode changes, control goes to the next command; so there is no return from one either (R207). -/
def raise (e : Error) (s : State) : Outcome := .next (deliver (responseFrame (errorStatus e) (errorBody e)) s)

/-- The random port has not answered: the unit stays busy with the command, and no later command is taken (R236, U10; log
entry 4). Nothing has happened: the same command asks again in the next step. -/
def wait (s : State) : Outcome := .next s

/-- What one request of the random port comes to (R43, R236). -/
inductive RngResult where
  /-- The bytes asked for, now consumed. -/
  | answered (r : Frame) (s : State)
  /-- `Fail`. -/
  | failed (s : State)
  /-- No answer yet. -/
  | unanswered
  deriving DecidableEq, Repr

/-- `RngRead(n)` (R43): all or nothing. Only a string of exactly `n` bytes, or `Fail`, answers a request for `n` bytes (log
entry 3). -/
def rngRead (n : Nat) (s : State) : RngResult :=
  match s.rng with
  | [] => .unanswered
  | .fail :: rest => .failed { s with rng := rest }
  | .bytes r :: rest => if r.length = n then .answered r { s with rng := rest } else .unanswered

/-- The bytes of the next `n` draws (`draw()`, R10, R143): free values. -/
def drawnBytes (n : Nat) (s : State) : Frame := (List.range n).map fun i => Config.freeByte (s.draws + i)

/-- Answer OK with `n` draws, then `tail` (R143). -/
def retDrawn (n : Nat) (tail : Frame) (s : State) : Outcome :=
  ret (drawnBytes n s ++ tail) { s with draws := s.draws + n }

/-- Which frame the next step runs, and the unit busy with it (R28, R50): the one in flight, or the oldest one waiting. An
idle unit with no frame waiting has none. -/
def fetch (s : State) : Option (Frame × State) :=
  match s.phase with
  | .busy f => some (f, s)
  | .idle =>
    match s.cmd with
    | [] => none
    | f :: rest => some (f, { s with phase := .busy f, cmd := rest })

/-- The answer to a frame that is no command (R81, R205). -/
def rejectFrame (e : DecodeError) (s : State) : Outcome :=
  match e with
  | .illegalOpcode => raise .illegalOpcode s
  | .badFrame => raise .badFrame s

end Sys2Proof.Machine
end

