-- ==== Sys2Proof/Machine/FieldUnit.lean ====
section
/-! DEFINITION. GFADD, GFMUL, GFINV (40_field.md R104 to R106). -/

namespace Sys2Proof.Machine

/-- GFADD (R104). -/
def execGfadd (a b : Byte) (s : State) : Outcome := ret [gfAdd a b] s

/-- GFMUL (R105). -/
def execGfmul (a b : Byte) (s : State) : Outcome := ret [gfMul s.config.poly a b] s

/-- GFINV (R106): InvZero exactly where `gf_inv` has no value, which is `0x00` (R102). -/
def execGfinv (a : Byte) (s : State) : Outcome :=
  match gfInv s.config.poly a with
  | none => raise .invZero s
  | some r => ret [r] s

end Sys2Proof.Machine
end

