-- ==== Sys2Proof/Machine/Evaluator.lean ====
section
/-! DEFINITION. The polynomial evaluator: PEVAL, KSPLIT, and the split that FSPLIT shares (41_polyeval.md R120 to R126;
the parameter check is 43_codec.md R162). -/

namespace Sys2Proof.Machine

/-- `poly_eval(c, x)` (R120) by Horner's scheme: from the last coefficient down, `acc <- acc * x + c[j]`. -/
def polyEval (poly : ReductionPoly) (c : List Byte) (x : Byte) : Byte :=
  c.foldr (fun cj acc => gfAdd (gfMul poly acc x) cj) 0x00#8

/-- `validate_split(n, k)` (43_codec.md R162): the count first, then the threshold. -/
def validateSplit (n k : U16) : Option Error :=
  if n.toNat < 1 ∨ Config.N_MAX < n.toNat then some .invalidCount
  else if k.toNat < 1 ∨ n.toNat < k.toNat then some .invalidThreshold
  else none

/-- The coefficient lists of all lanes (R123): `c_b[0] = secret[b]`, `c_b[j] = r[b * (k - 1) + (j - 1)]`. -/
def laneCoefficients (k : Nat) (r : Frame) (secret : Frame) : List (List Byte) :=
  secret.zipIdx.map fun (c0, b) => c0 :: memRead r (b * (k - 1)) (k - 1)

/-- `split(secret, n, k, r)` (R122): the share at position `x - 1` has index `x` and, in lane `b`, the value of that
lane's polynomial at `x` (R126). -/
def split (poly : ReductionPoly) (secret : Frame) (n k : Nat) (r : Frame) : List Frame :=
  (List.range n).map fun p =>
    byteOf (p + 1) :: (laneCoefficients k r secret).map fun c => polyEval poly c (byteOf (p + 1))

/-- The random bytes of one split (R44, R124): none asked for when `k = 1`, else one request of `32 * (k - 1)`. -/
def splitRandom (k : Nat) (s : State) : RngResult :=
  if k = 1 then .answered [] s else rngRead (Config.L * (k - 1)) s

/-- What KSPLIT and FSPLIT share (R124, 44_fullshare.md R185): validate, draw the coefficients, split, answer with every
share framed by `frame`. -/
def splitCommand (n k : U16) (secret : Frame) (frame : Frame → Frame) (s : State) : Outcome :=
  match validateSplit n k with
  | some e => raise e s
  | none =>
    match splitRandom k.toNat s with
    | .unanswered => wait s
    | .failed t => raise .randomSourceFailure t
    | .answered r t => ret ((split s.config.poly secret n.toNat k.toNat r).flatMap frame) t

/-- PEVAL (R121): no coefficient at all is InvalidThreshold. -/
def execPeval (x : Byte) (c : List Byte) (s : State) : Outcome :=
  if c.length = 0 then raise .invalidThreshold s else ret [polyEval s.config.poly c x] s

/-- KSPLIT (R124). -/
def execKsplit (n k : U16) (secret : List Byte) (s : State) : Outcome := splitCommand n k secret id s

end Sys2Proof.Machine
end

