-- ==== Sys2Proof/Machine/Codec.lean ====
section
/-! DEFINITION. The share codec, the validators and the deduplicator: VALSPLIT, VALCOMB, DEDUP, KFRAME, KUNFRAME
(43_codec.md R160 to R170). -/

namespace Sys2Proof.Machine

/-- `frame_keyshare(index, payload)` (R160). -/
def frameKeyShare (index : Byte) (payload : Frame) : Frame := index :: payload

/-- The first share, from position `pos` on, whose length is not the expected one (R164): the lowest such position, its
length, the expected length. -/
def firstMalformed (expected : Nat) : Nat → List Frame → Option Error
  | _, [] => none
  | pos, r :: rs =>
    if r.length = expected then firstMalformed expected (pos + 1) rs
    else some (.malformedShare (BitVec.ofNat 16 pos) (byteOf r.length) (byteOf expected))

/-- `validate_combine(recs, expected)` (R164): empty, too many as supplied, then lengths. -/
def validateCombine (recs : List Frame) (expected : Nat) : Option Error :=
  if recs.length = 0 then some .emptyInput
  else if Config.COMBINE_MAX < recs.length then some .tooManyShares
  else firstMalformed expected 0 recs

/-- `dedup(recs)` (R166): of byte-identical records the first is kept, in input order. -/
def dedup : List Frame → List Frame
  | [] => []
  | r :: rs => r :: (dedup rs).filter fun r' => r' != r

/-- VALSPLIT (R163). -/
def execValsplit (n k : U16) (s : State) : Outcome :=
  match validateSplit n k with
  | some e => raise e s
  | none => ret [] s

/-- VALCOMB (R165). -/
def execValcomb (kind : ShareKind) (recs : List (List Byte)) (s : State) : Outcome :=
  match validateCombine recs (expectedLength kind) with
  | some e => raise e s
  | none => ret [] s

/-- DEDUP (R167): nothing is validated; no records at all answer OK with none. -/
def execDedup (recs : List (List Byte)) (s : State) : Outcome :=
  ret (countField (dedup recs) ++ putRecords (dedup recs)) s

/-- KFRAME (R168): a zero index is refused with BadFrame. -/
def execKframe (index : Byte) (payload : List Byte) (s : State) : Outcome :=
  if index = 0x00#8 then raise .badFrame s else ret (frameKeyShare index payload) s

/-- KUNFRAME (R169): the index, then the payload; a share of another length than 33 is malformed, at position 0. -/
def execKunframe (share : List Byte) (s : State) : Outcome :=
  if share.length = Config.KS_LEN then ret (memRead share 0 1 ++ memRead share 1 Config.L) s
  else raise (.malformedShare 0#16 (byteOf share.length) (byteOf Config.KS_LEN)) s

end Sys2Proof.Machine
end

