-- ==== Sys2Proof/Machine/Lagrange.lean ====
section
/-! DEFINITION. The Lagrange engine at x = 0: LAGR0, KCOMB, and the combine that FCOMB shares (42_lagrange.md R140 to R147). -/

namespace Sys2Proof.Machine

/-- The precondition of the engine (R140, R143): at least one point, no x-coordinate `0x00`, no two alike. -/
abbrev Interpolable (xs : List Byte) : Prop := xs ≠ [] ∧ 0x00#8 ∉ xs ∧ xs.Nodup

/-- `num` of R141 for the point whose fellow points have x-coordinates `others`. -/
def weightNum (poly : ReductionPoly) (others : List Byte) : Byte := others.foldl (gfMul poly) 0x01#8

/-- `den` of R141: the product of the differences to `xj`. -/
def weightDen (poly : ReductionPoly) (xj : Byte) (others : List Byte) : Byte :=
  others.foldl (fun den xi => gfMul poly den (gfAdd xi xj)) 0x01#8

/-- `w_j = num * gf_inv(den)` (R141). -/
def weight (poly : ReductionPoly) (xj : Byte) (others : List Byte) : Option Byte :=
  (gfInv poly (weightDen poly xj others)).map fun d => gfMul poly (weightNum poly others) d

/-- The weights of all points, which depend on the x-coordinates only (R141). -/
def weights (poly : ReductionPoly) (xs : List Byte) : Option (List Byte) :=
  xs.zipIdx.mapM fun (xj, j) => weight poly xj (xs.eraseIdx j)

/-- `GFSUM(gf_mul(y_j, w_j))` (R140, R141). -/
def weightedSum (poly : ReductionPoly) (ys ws : List Byte) : Byte :=
  (List.zipWith (gfMul poly) ys ws).foldl gfAdd 0x00#8

/-- `lagrange0(P)` (R140) by the reference procedure R141: a partial function, without a value where its precondition is not
met (R143); no `gf_inv(0x00)` is ever evaluated (R102). -/
def lagrange0 (poly : ReductionPoly) (points : List (Byte × Byte)) : Option Byte :=
  if Interpolable (points.map Prod.fst) then
    (weights poly (points.map Prod.fst)).map (weightedSum poly (points.map Prod.snd))
  else none

/-- The x-coordinate of a key-share: its index byte (R144). -/
def shareX (share : Frame) : Byte := share.getD 0 0x00#8

/-- The y-coordinate of lane `b` of a key-share: payload byte `b` (R144). -/
def shareY (b : Nat) (share : Frame) : Byte := share.getD (1 + b) 0x00#8

/-- `combine(S)` (R144): lane by lane, with the weights that all lanes share computed once (R141; log entry 9). Partial as
`lagrange0` is: the precondition concerns the whole result. -/
def combine (poly : ReductionPoly) (shares : List Frame) : Option Frame :=
  if Interpolable (shares.map shareX) then
    (weights poly (shares.map shareX)).map fun ws =>
      (List.range Config.L).map fun b => weightedSum poly (shares.map (shareY b)) ws
  else none

/-- Answer with the combined key of `shares`, then `tail`; where the combine has no value, 32 draws stand for the key
(R143, R145, 44_fullshare.md R186). -/
def combineCommand (shares : List Frame) (tail : Frame) (s : State) : Outcome :=
  match combine s.config.poly shares with
  | some key => ret (key ++ tail) s
  | none => retDrawn Config.L tail s

/-- LAGR0 (R142): no points at all is EmptyInput; the engine does not deduplicate. -/
def execLagr0 (points : List (Byte × Byte)) (s : State) : Outcome :=
  if points.length = 0 then raise .emptyInput s
  else
    match lagrange0 s.config.poly points with
    | some r => ret [r] s
    | none => retDrawn 1 [] s

/-- KCOMB (R145): validate, deduplicate, combine. No check for too few or forged shares exists (R147). -/
def execKcomb (recs : List (List Byte)) (s : State) : Outcome :=
  match validateCombine recs Config.KS_LEN with
  | some e => raise e s
  | none => combineCommand (dedup recs) [] s

end Sys2Proof.Machine
end

