-- ==== Sys2Proof/Machine/FullShare.lean ====
section
/-! DEFINITION. The full-share framer: FFRAME, FUNFRAME, FSPLIT, FCOMB (44_fullshare.md R180 to R186). The envelope is
opaque (R181): it is copied and compared, never interpreted. -/

namespace Sys2Proof.Machine

/-- `frame_full(ks, env)` (R180). -/
def frameFull (env ks : Frame) : Frame := ks ++ env

/-- The key-share part of a full share, `s[0..33]` (R180). -/
def keySharePart (share : Frame) : Frame := memRead share 0 Config.KS_LEN

/-- The envelope part of a full share, `s[33..113]` (R180). -/
def envelopePart (share : Frame) : Frame := memRead share Config.KS_LEN Config.E

/-- The first share, from position `pos` on, whose envelope is not `env` (R183): `observed = expected = 113`. -/
def firstDiffering (env : Frame) : Nat → List Frame → Option Error
  | _, [] => none
  | pos, r :: rs =>
    if envelopePart r = env then firstDiffering env (pos + 1) rs
    else some (.malformedShare (BitVec.ofNat 16 pos) (byteOf Config.FS_LEN) (byteOf Config.FS_LEN))

/-- The envelope of position 0, the copy all others are compared with (R183). -/
def commonEnvelope : List Frame → Frame
  | [] => []
  | r :: _ => envelopePart r

/-- `check_envelopes(recs)` (R183), behind the count and length checks it needs (R184, R186, R208). -/
def validateFull (recs : List Frame) : Option Error :=
  match validateCombine recs Config.FS_LEN with
  | some e => some e
  | none => firstDiffering (commonEnvelope recs) 0 recs

/-- FFRAME (R182): the key-shares are not inspected. -/
def execFframe (env : List Byte) (keyShares : List (List Byte)) (s : State) : Outcome :=
  if keyShares.length < 1 ∨ Config.N_MAX < keyShares.length then raise .invalidCount s
  else ret (keyShares.flatMap (frameFull env)) s

/-- FUNFRAME (R184): no deduplication; the key-shares come back in input order. -/
def execFunframe (recs : List (List Byte)) (s : State) : Outcome :=
  match validateFull recs with
  | some e => raise e s
  | none => ret (countField recs ++ commonEnvelope recs ++ recs.flatMap keySharePart) s

/-- FSPLIT (R185): KSPLIT, then every key-share framed with the envelope. -/
def execFsplit (n k : U16) (key env : List Byte) (s : State) : Outcome := splitCommand n k key (frameFull env) s

/-- FCOMB (R186): the candidate key and the envelope; only `Open`, outside the unit, can tell whether it is the key (R209). -/
def execFcomb (recs : List (List Byte)) (s : State) : Outcome :=
  match validateFull recs with
  | some e => raise e s
  | none => combineCommand (dedup (recs.map keySharePart)) (commonEnvelope recs) s

end Sys2Proof.Machine
end

