-- ==== Sys2Proof/Machine/Dispatch.lean ====
section
/-! DEFINITION. One arm per command (30_encoding.md R80), each one call of its meaning. -/

namespace Sys2Proof.Machine

def exec (i : Instr) (s : State) : Host.Outcome State Fault Refusal :=
  match i with
  | .gfadd a b => Sys2Proof.Machine.execGfadd a b s
  | .gfmul a b => Sys2Proof.Machine.execGfmul a b s
  | .gfinv a => Sys2Proof.Machine.execGfinv a s
  | .peval x c => Sys2Proof.Machine.execPeval x c s
  | .ksplit n k secret => Sys2Proof.Machine.execKsplit n k secret s
  | .lagr0 points => Sys2Proof.Machine.execLagr0 points s
  | .kcomb recs => Sys2Proof.Machine.execKcomb recs s
  | .valsplit n k => Sys2Proof.Machine.execValsplit n k s
  | .valcomb kind recs => Sys2Proof.Machine.execValcomb kind recs s
  | .dedup recs => Sys2Proof.Machine.execDedup recs s
  | .kframe index payload => Sys2Proof.Machine.execKframe index payload s
  | .kunframe share => Sys2Proof.Machine.execKunframe share s
  | .fframe env keyShares => Sys2Proof.Machine.execFframe env keyShares s
  | .funframe recs => Sys2Proof.Machine.execFunframe recs s
  | .fsplit n k key env => Sys2Proof.Machine.execFsplit n k key env s
  | .fcomb recs => Sys2Proof.Machine.execFcomb recs s

end Sys2Proof.Machine
end

