-- ==== Sys2Proof/Machine/Ports.lean ====
section
/-! DEFINITION. What the outside world can do to the unit (20_memory.md R40 to R43, R50; 70_reset_and_hazards.md R230, R231).
Each lands between two steps. No step calls them. -/

namespace Sys2Proof.Machine

/-- The host offers a command frame; while the unit is busy it waits, and is not lost or reordered (R50). -/
def offer (f : Frame) (s : State) : State := { s with cmd := s.cmd ++ [f] }

/-- The random source gives its next answer (R43). -/
def supply (a : RngAnswer) (s : State) : State := { s with rng := s.rng ++ [a] }

/-- The host takes the oldest response off the port; reading has no effect on the unit (R42). -/
def collect (s : State) : Option (Frame × State) :=
  match s.rsp with
  | [] => none
  | r :: rest => some (r, { s with rsp := rest })

/-- Reset of a running unit (R230, R231): a command in flight is abandoned and gets no response. The constants are not
affected, and frames the unit has not taken and responses it has delivered are the host's (log entry 8). -/
def applyReset (s : State) : State := { s with phase := .idle }

end Sys2Proof.Machine
end

