-- ==== Sys2Proof/Machine/Step.lean ====
section
/-! DEFINITION. One step of the unit (20_memory.md R50, R51): one command, taken, executed, answered. -/

namespace Sys2Proof.Machine

/-- Take the oldest waiting frame (or go on with the one in flight), decode it and execute it; a frame that is no command is
answered as R205 says. With no frame there is nothing to do (R50; log entry 5). -/
def step (s : State) : Host.Outcome State Fault Refusal :=
  match fetch s with
  | none => .next s
  | some (f, t) =>
    match decode f with
    | .ok i => exec i t
    | .error e => rejectFrame e t

/-- `s` with the frame of `tableFrame nbits w` as the one the very next step takes: the oldest on the `CMD` port of an idle
unit. This is how any program comes to run: the host delivers its frames (log entry 7). -/
def State.withFetchWord (s : State) (nbits w : Nat) : State :=
  { s with phase := .idle, cmd := tableFrame nbits w :: s.cmd }

end Sys2Proof.Machine
end

