-- ==== Sys2Proof/Safety.lean ====
section
/-! DEFINITION. The terms the statements are made in: what an answered command leaves, which responses are legal, which
commands read the random port or draw, the invariant of a run, and the mathematics that the field's bytes stand for. No
meaning uses this file. -/

namespace Sys2Proof.Machine

/-- `s` with the response `r` delivered and the unit idle, everything else as it was (R42, R50). -/
def answered (r : Frame) (s : State) : State := { s with phase := .idle, rsp := s.rsp ++ [r] }

/-- `s` after one answer of the random source has been consumed (R43). -/
def afterAnswer (rest : List RngAnswer) (s : State) : State := { s with rng := rest }

/-- `s` after `n` more draws (R143). -/
def afterDraws (n : Nat) (s : State) : State := { s with draws := s.draws + n }

/-- `1 <= k <= n <= 255`, the parameters every split accepts (R162, R122). -/
abbrev ValidParams (n k : Nat) : Prop := 1 ≤ k ∧ k ≤ n ∧ n ≤ 255

/-- The status bytes of errors with an empty body (R77, R78). -/
def emptyBodyStatus : List Byte := [0x01#8, 0x02#8, 0x03#8, 0x04#8, 0x06#8, 0x10#8, 0x11#8, 0x12#8]

/-- A response frame the unit may produce (R77, R78, U13): OK with some body, MalformedShare with four bytes, or one of
the eight other errors alone. -/
def LegalResponse (r : Frame) : Prop :=
  (∃ body, r = 0x00#8 :: body) ∨ (∃ body, r = 0x05#8 :: body ∧ body.length = 4) ∨ ∃ c ∈ emptyBodyStatus, r = [c]

/-- How many random bytes a command asks for, 0 if it makes no request: `32 * (k - 1)` for a split whose parameters are
valid (R44). -/
def randomNeed : Instr → Nat
  | .ksplit n k _ => if validateSplit n k = none then 32 * (k.toNat - 1) else 0
  | .fsplit n k _ _ => if validateSplit n k = none then 32 * (k.toNat - 1) else 0
  | .gfadd _ _ => 0
  | .gfmul _ _ => 0
  | .gfinv _ => 0
  | .peval _ _ => 0
  | .lagr0 _ => 0
  | .kcomb _ => 0
  | .valsplit _ _ => 0
  | .valcomb _ _ => 0
  | .dedup _ => 0
  | .kframe _ _ => 0
  | .kunframe _ => 0
  | .fframe _ _ => 0
  | .funframe _ => 0
  | .fcomb _ => 0

/-- A command that makes a request of the random port (R44). -/
abbrev AsksRandom (i : Instr) : Prop := randomNeed i ≠ 0

/-- How many draws a command's answer holds, 0 if none (R143): 1 for LAGR0 and 32 for KCOMB and FCOMB, where the engine's
precondition fails. -/
def drawsNeeded : Instr → Nat
  | .lagr0 points => if points = [] ∨ Interpolable (points.map Prod.fst) then 0 else 1
  | .kcomb recs =>
    if validateCombine recs 33 = none ∧ ¬ Interpolable ((dedup recs).map shareX) then 32 else 0
  | .fcomb recs =>
    if validateFull recs = none ∧ ¬ Interpolable ((dedup (recs.map keySharePart)).map shareX) then 32 else 0
  | .gfadd _ _ => 0
  | .gfmul _ _ => 0
  | .gfinv _ => 0
  | .peval _ _ => 0
  | .ksplit _ _ _ => 0
  | .valsplit _ _ => 0
  | .valcomb _ _ => 0
  | .dedup _ => 0
  | .kframe _ _ => 0
  | .kunframe _ => 0
  | .fframe _ _ => 0
  | .funframe _ => 0
  | .fsplit _ _ _ _ => 0

/-- The random source's next answer is one the command's request can take (R43): `Fail`, or exactly the bytes asked for. -/
def RandomReady (i : Instr) (s : State) : Prop :=
  randomNeed i = 0 ∨ ∃ rest, s.rng = .fail :: rest ∨ ∃ r, s.rng = .bytes r :: rest ∧ r.length = randomNeed i

/-- The body length of an OK response, by the table of R78. -/
def okBodyLength : Instr → Nat
  | .gfadd _ _ => 1
  | .gfmul _ _ => 1
  | .gfinv _ => 1
  | .peval _ _ => 1
  | .lagr0 _ => 1
  | .ksplit n _ _ => 33 * n.toNat
  | .kcomb _ => 32
  | .valsplit _ _ => 0
  | .valcomb _ _ => 0
  | .dedup recs => 2 + ((dedup recs).map fun r => 1 + r.length).sum
  | .kframe _ _ => 33
  | .kunframe _ => 33
  | .fframe _ keyShares => 113 * keyShares.length
  | .funframe recs => 82 + 33 * recs.length
  | .fsplit n _ _ _ => 113 * n.toNat
  | .fcomb _ => 112

/-- 1 while a command is in flight, else 0 (R28). -/
def inFlight (s : State) : Nat :=
  match s.phase with
  | .idle => 0
  | .busy _ => 1

/-- The invariant of every run: each response delivered is a legal one (R77, R78), and a unit that is busy between two
steps is a split waiting for its random bytes (R51 "the only wait", R236). -/
def Inv (s : State) : Prop :=
  (∀ r ∈ s.rsp, LegalResponse r) ∧ ∀ f, s.phase = .busy f → ∃ i, decode f = .ok i ∧ AsksRandom i

/-- The response a unit fresh from reset, built as `c`, gives to one frame (R20). -/
def soloResponse (c : Config) (f : Frame) : Frame :=
  match step { State.reset with config := c, cmd := [f] } with
  | .next t => t.rsp.headD []
  | .fault _ => []
  | .refused _ => []

/-- A frame whose answer is a function of the frame and the constants alone (R20): neither a random answer nor a draw. -/
def SelfContained (f : Frame) : Prop := ∀ i, decode f = .ok i → randomNeed i = 0 ∧ drawsNeeded i = 0

/-- Byte `i` of a frame, for offsets inside it. -/
def byteAt (f : Frame) (i : Nat) : Byte := f.getD i 0x00#8

/-- `GFSUM` (R11). -/
def gfSum (l : List Byte) : Byte := l.foldr gfAdd 0x00#8

/-- The sum of R120: `c[j] * x^j` over all `j`. -/
def powerSum (poly : ReductionPoly) (c : List Byte) (x : Byte) : Byte :=
  gfSum (c.zipIdx.map fun (cj, j) => gfMul poly cj (gfPow poly x j))

/-- The coefficient list of lane `b` (R123). -/
def laneOf (k : Nat) (r secret : Frame) (b : Nat) : List Byte :=
  byteAt secret b :: (List.range (k - 1)).map fun j => byteAt r (b * (k - 1) + j)

/-- The points of lane `b` of a list of key-shares (R144). -/
def lanePoints (b : Nat) (shares : List Frame) : List (Byte × Byte) :=
  shares.map fun s => (byteAt s 0, byteAt s (1 + b))

/-- The weight of R140's closed form: the product of `x_i * gf_inv(x_i + x_j)` over the other points. -/
def closedWeight (poly : ReductionPoly) (xj : Byte) : List Byte → Option Byte
  | [] => some 0x01#8
  | xi :: others =>
    match gfInv poly (gfAdd xi xj), closedWeight poly xj others with
    | some d, some w => some (gfMul poly (gfMul poly xi d) w)
    | _, _ => none

/-- The remainder of one carry-less long-division round: clear bit `i` of `v` with `d`, whose top bit is `top`. -/
def divideBit (d top v i : Nat) : Nat := if v.testBit i ∧ top ≤ i then v ^^^ (d <<< (i - top)) else v

/-- `v` modulo `d` as polynomials over GF(2), for a `v` of at most nine bits and a `d` with top bit `top` (R7, "trial
division"). -/
def remainder (v d top : Nat) : Nat := [8, 7, 6, 5, 4, 3, 2, 1].foldl (divideBit d top) v

/-- The polynomial over GF(2) a bit string stands for (R8): bit `i` is the coefficient of `t^i`. -/
noncomputable def toPolynomial {w : Nat} (v : BitVec w) : Polynomial (ZMod 2) :=
  ∑ i ∈ Finset.range w, if v.getLsbD i then Polynomial.X ^ i else 0

/-- Every frame that opens with `op` and is not `len` bytes long is a BadFrame (R76). -/
def WrongLengthIsBadFrame (op : Byte) (len : Nat) : Prop :=
  ∀ f : Frame, f.head? = some op → f.length ≠ len → decode f = .error .badFrame

/-- Records a frame can carry (R75). -/
abbrev Sendable (recs : List Frame) : Prop := recs.length ≤ 65535 ∧ ∀ r ∈ recs, r.length ≤ 255

/-- Format FL with opcode `op` (R75, R76): opcode, count, records. Such a frame is the command `mk recs`, and every other
frame with that opcode is a BadFrame. -/
def ListFormat (op : Byte) (mk : List Frame → Instr) : Prop :=
  (∀ recs, Sendable recs → decode (op :: (countField recs ++ putRecords recs)) = .ok (mk recs)) ∧
  ∀ f : Frame, f.head? = some op → (∀ recs, Sendable recs → f ≠ op :: (countField recs ++ putRecords recs)) →
    decode f = .error .badFrame

/-- Shares that pass the combine validation for the length `len` (R164). -/
abbrev Supplied (len : Nat) (recs : List Frame) : Prop :=
  1 ≤ recs.length ∧ recs.length ≤ 254 ∧ ∀ r ∈ recs, r.length = len

/-- `r` at position `i` is the first share whose length is not `len` (R164). -/
abbrev FirstWrongLength (len : Nat) (recs : List Frame) (i : Nat) (r : Frame) : Prop :=
  recs[i]? = some r ∧ r.length ≠ len ∧ ∀ r' ∈ recs.take i, r'.length = len

/-- The MalformedShare response (R203): `05`, the position, the observed and the expected length. -/
def malformedResponse (i observed expected : Nat) : Frame :=
  0x05#8 :: (u16le (BitVec.ofNat 16 i) ++ [byteOf observed, byteOf expected])

/-- The three errors of the combine validation, in their order, as the answers of the command `mk recs` (R164, R208). -/
def CombineErrors (len : Nat) (mk : List Frame → Instr) : Prop :=
  (∀ s, exec (mk []) s = .next (answered [0x03#8] s)) ∧
  (∀ recs s, 254 < recs.length → exec (mk recs) s = .next (answered [0x04#8] s)) ∧
  ∀ recs s i r, 1 ≤ recs.length → recs.length ≤ 254 → FirstWrongLength len recs i r →
    exec (mk recs) s = .next (answered (malformedResponse i r.length len) s)

/-- The x-coordinates of the key-shares that reach the engine (R144). -/
def indexBytes (shares : List Frame) : List Byte := shares.map fun s => byteAt s 0

/-- The key-share and the envelope of a full share (R180). -/
def keyOf (share : Frame) : Frame := share.take 33

/-- See `keyOf`. -/
def envOf (share : Frame) : Frame := share.drop 33

/-- Full shares that all carry the envelope `env` (R183). -/
abbrev SameEnvelope (env : Frame) (recs : List Frame) : Prop := ∀ r ∈ recs, envOf r = env

/-- The envelope error of R183 as the answer of the command `mk recs`: lengths right, `i` the lowest position whose envelope
is not that of position 0. -/
def EnvelopeError (mk : List Frame → Instr) : Prop :=
  ∀ recs s i r, Supplied 113 recs → recs[i]? = some r → envOf r ≠ envOf (recs.headD []) →
    (∀ r' ∈ recs.take i, envOf r' = envOf (recs.headD [])) →
    exec (mk recs) s = .next (answered (malformedResponse i 113 113) s)

end Sys2Proof.Machine
end

