-- ==== Sys2Proof/Certificates/Slice0/Obligations.lean ====
section
/-! DEFINITION. The statements for the provers. Nothing is proved here. -/

open Sys2Proof Sys2Proof.Machine

/-! ### The field unit -/

/-- R100, R104. -/
def Obligations.GfaddAnswersTheXor : Prop :=
  (∀ a b : Byte, gfAdd a b = a ^^^ b ∧ gfAdd a a = 0x00#8) ∧
  (∀ (a b : Byte) (s : State), exec (.gfadd a b) s = .next (answered [0x00#8, a ^^^ b] s)) ∧
  (∀ a b : Byte, encode (.gfadd a b) = [0x01#8, a, b] ∧ decode [0x01#8, a, b] = .ok (.gfadd a b)) ∧
  WrongLengthIsBadFrame 0x01#8 3

/-- R101: the product is the polynomial remainder, computed by the two steps, and depends on `POLY` exactly when the
carry-less product has a bit above bit 7. -/
def Obligations.ProductIsThePolynomialRemainder : Prop :=
  (∀ a b : Byte, toPolynomial (carrylessProduct a b) = toPolynomial a * toPolynomial b) ∧
  (∀ (p : ReductionPoly) (v : BitVec 15) (i : Nat), 8 ≤ i → (reduceProduct (polyBits p) v).getLsbD i = false) ∧
  (∀ (p : ReductionPoly) (a b : Byte),
    toPolynomial (gfMul p a b) = (toPolynomial a * toPolynomial b) %ₘ toPolynomial (polyBits p)) ∧
  (∀ a b : Byte, (carrylessProduct a b).toNat < 256 → ∀ p : ReductionPoly, gfMul p a b = (carrylessProduct a b).setWidth 8) ∧
  ∀ a b : Byte, 256 ≤ (carrylessProduct a b).toNat → ∃ p q : ReductionPoly, gfMul p a b ≠ gfMul q a b

/-- R102: `gf_inv` has exactly one value at every non-zero byte and none at zero. -/
def Obligations.InverseIsUniqueAndPartial : Prop :=
  ∀ p : ReductionPoly, gfInv p 0x00#8 = none ∧
    ∀ a : Byte, a ≠ 0x00#8 → ∃ b, gfInv p a = some b ∧ b ≠ 0x00#8 ∧ gfMul p a b = 0x01#8 ∧
      ∀ c, gfMul p a c = 0x01#8 → c = b

/-- R103. -/
def Obligations.FieldLawsHoldForEveryPoly : Prop :=
  ∀ (p : ReductionPoly) (a b c : Byte),
    gfAdd a b = gfAdd b a ∧ gfAdd (gfAdd a b) c = gfAdd a (gfAdd b c) ∧
    gfMul p a b = gfMul p b a ∧ gfMul p (gfMul p a b) c = gfMul p a (gfMul p b c) ∧
    gfMul p a (gfAdd b c) = gfAdd (gfMul p a b) (gfMul p a c) ∧
    gfAdd a 0x00#8 = a ∧ gfAdd a a = 0x00#8 ∧ gfMul p a 0x01#8 = a ∧ gfMul p a 0x00#8 = 0x00#8 ∧
    (gfMul p a b = 0x00#8 → a = 0x00#8 ∨ b = 0x00#8) ∧
    (a ≠ 0x00#8 → ∃ d, gfInv p a = some d ∧ gfMul p a d = 0x01#8 ∧ gfInv p d = some a) ∧
    gfInv p 0x01#8 = some 0x01#8

/-- R105. -/
def Obligations.GfmulAnswersTheProduct : Prop :=
  (∀ (a b : Byte) (s : State),
    exec (.gfmul a b) s = .next (answered [0x00#8, gfMul s.config.poly a b] s)) ∧
  (∀ (p : ReductionPoly) (a b : Byte),
    gfMul p 0x00#8 b = 0x00#8 ∧ gfMul p a 0x00#8 = 0x00#8 ∧ gfMul p 0x01#8 b = b ∧ gfMul p a 0x01#8 = a ∧
    gfMul p a b = gfMul p b a ∧ (a ≠ 0x00#8 → b ≠ 0x00#8 → gfMul p a b ≠ 0x00#8)) ∧
  (∀ p : ReductionPoly, gfMul p 0x02#8 0x80#8 = (polyBits p).setWidth 8) ∧
  (∀ a b : Byte, encode (.gfmul a b) = [0x02#8, a, b] ∧ decode [0x02#8, a, b] = .ok (.gfmul a b)) ∧
  WrongLengthIsBadFrame 0x02#8 3

/-- R106. -/
def Obligations.GfinvAnswersTheInverseOrInvZero : Prop :=
  (∀ s : State, exec (.gfinv 0x00#8) s = .next (answered [0x10#8] s)) ∧
  (∀ (a : Byte) (s : State), a ≠ 0x00#8 → ∃ b, b ≠ 0x00#8 ∧ gfMul s.config.poly a b = 0x01#8 ∧
    exec (.gfinv a) s = .next (answered [0x00#8, b] s) ∧ exec (.gfinv b) s = .next (answered [0x00#8, a] s)) ∧
  (∀ s : State, exec (.gfinv 0x01#8) s = .next (answered [0x00#8, 0x01#8] s)) ∧
  (∀ a : Byte, encode (.gfinv a) = [0x03#8, a] ∧ decode [0x03#8, a] = .ok (.gfinv a)) ∧
  WrongLengthIsBadFrame 0x03#8 2

/-- R107 (a) and (b): two other forms of the same functions; the second yields zero at zero, where `gf_inv` has no value. -/
def Obligations.OtherFormsOfTheFieldFunctionsAgree : Prop :=
  (∀ (p : ReductionPoly) (a b : Byte), gfMulShiftAdd p a b = gfMul p a b) ∧
  (∀ (p : ReductionPoly) (a : Byte), a ≠ 0x00#8 → gfInv p a = some (gfPow p a 254)) ∧
  ∀ p : ReductionPoly, gfPow p 0x00#8 254 = 0x00#8

/-- R7: the admissible values of `POLY` are exactly the nine-bit values with bit 8 set that no polynomial of degree 1 to 4
divides, each under one name, and they are the 30 values R7 lists. -/
def Obligations.PolyIsExactlyTheIrreducibleValues : Prop :=
  (∀ v : BitVec 9, (∃ p, polyBits p = v) ↔
    v.getLsbD 8 = true ∧ ∀ top ∈ [1, 2, 3, 4], ∀ d ∈ List.range 32, 2 ^ top ≤ d → d < 2 ^ (top + 1) →
      remainder v.toNat d top ≠ 0) ∧
  (∀ p q : ReductionPoly, polyBits p = polyBits q → p = q) ∧
  ∀ v : BitVec 9, (∃ p, polyBits p = v) ↔ v.toNat ∈
    [0x11B, 0x11D, 0x12B, 0x12D, 0x139, 0x13F, 0x14D, 0x15F, 0x163, 0x165, 0x169, 0x171, 0x177, 0x17B, 0x187,
      0x18B, 0x18D, 0x19F, 0x1A3, 0x1A9, 0x1B1, 0x1BD, 0x1C3, 0x1CF, 0x1D7, 0x1DD, 0x1E7, 0x1F3, 0x1F5, 0x1F9]

/-! ### The polynomial evaluator -/

/-- R120. -/
def Obligations.HornerGivesThePowerSum : Prop :=
  (∀ (p : ReductionPoly) (c : List Byte) (x : Byte), c ≠ [] → polyEval p c x = powerSum p c x) ∧
  (∀ (p : ReductionPoly) (c0 : Byte) (c : List Byte), polyEval p (c0 :: c) 0x00#8 = c0) ∧
  (∀ (p : ReductionPoly) (c0 x : Byte), polyEval p [c0] x = c0) ∧
  ∀ (p : ReductionPoly) (c : List Byte), polyEval p c 0x01#8 = gfSum c

/-- R121. -/
def Obligations.PevalAnswersThePolynomialValue : Prop :=
  (∀ (x : Byte) (s : State), exec (.peval x []) s = .next (answered [0x02#8] s)) ∧
  (∀ (x : Byte) (c : List Byte) (s : State), c ≠ [] →
    exec (.peval x c) s = .next (answered [0x00#8, powerSum s.config.poly c x] s)) ∧
  (∀ (x : Byte) (c : List Byte) (s : State), c ≠ [] →
    exec (.peval x (c ++ [0x00#8])) s = exec (.peval x c) s) ∧
  (∀ (x : Byte) (c : List Byte), c.length ≤ 255 →
    encode (.peval x c) = 0x10#8 :: byteOf c.length :: x :: c ∧
    decode (0x10#8 :: byteOf c.length :: x :: c) = .ok (.peval x c)) ∧
  ∀ f : Frame, f.head? = some 0x10#8 → (∀ k, f[1]? = some k → f.length ≠ 3 + k.toNat) → decode f = .error .badFrame

/-- R122, R123. -/
def Obligations.SplitEvaluatesEveryLaneAtEveryIndex : Prop :=
  ∀ (p : ReductionPoly) (secret : Frame) (n k : Nat) (r : Frame), secret.length = 32 → ValidParams n k →
    r.length = 32 * (k - 1) →
    (split p secret n k r).length = n ∧
    ∀ i < n, (split p secret n k r)[i]? =
      some (byteOf (i + 1) :: (List.range 32).map fun b => powerSum p (laneOf k r secret b) (byteOf (i + 1)))

/-- R124. -/
def Obligations.KsplitAnswersInEveryCase : Prop :=
  (∀ (n k : U16) (secret : Frame) (s : State), secret.length = 32 →
    ((n.toNat = 0 ∨ 255 < n.toNat) → exec (.ksplit n k secret) s = .next (answered [0x01#8] s)) ∧
    (1 ≤ n.toNat → n.toNat ≤ 255 → (k.toNat = 0 ∨ n.toNat < k.toNat) →
      exec (.ksplit n k secret) s = .next (answered [0x02#8] s)) ∧
    (ValidParams n.toNat k.toNat → k.toNat = 1 → exec (.ksplit n k secret) s =
      .next (answered (0x00#8 :: (List.range n.toNat).flatMap fun i => byteOf (i + 1) :: secret) s)) ∧
    (ValidParams n.toNat k.toNat → 2 ≤ k.toNat → ∀ rest, s.rng = .fail :: rest →
      exec (.ksplit n k secret) s = .next (answered [0x06#8] (afterAnswer rest s))) ∧
    (ValidParams n.toNat k.toNat → 2 ≤ k.toNat → ∀ r rest, s.rng = .bytes r :: rest →
      r.length = 32 * (k.toNat - 1) → exec (.ksplit n k secret) s =
        .next (answered (0x00#8 :: (split s.config.poly secret n.toNat k.toNat r).flatten) (afterAnswer rest s)))) ∧
  (∀ (p : ReductionPoly) (secret r : Frame) (n k : Nat), ValidParams n k → (split p secret n k r).Nodup) ∧
  (∀ (n k : U16) (secret : Frame), secret.length = 32 →
    encode (.ksplit n k secret) = 0x11#8 :: (u16le n ++ u16le k ++ secret) ∧
    decode (0x11#8 :: (u16le n ++ u16le k ++ secret)) = .ok (.ksplit n k secret)) ∧
  WrongLengthIsBadFrame 0x11#8 37

/-! ### The Lagrange engine -/

/-- R140: the value at zero of the one polynomial of degree below `m` through the `m` points; with one point its `y`; the
order of the points does not matter. -/
def Obligations.InterpolationIsTheValueAtZero : Prop :=
  (∀ (p : ReductionPoly) (points : List (Byte × Byte)), Interpolable (points.map Prod.fst) →
    ∃ v, lagrange0 p points = some v ∧
      (∃ c : List Byte, c.length = points.length ∧ (∀ q ∈ points, polyEval p c q.1 = q.2) ∧
        polyEval p c 0x00#8 = v) ∧
      ∀ c : List Byte, c.length ≤ points.length → (∀ q ∈ points, polyEval p c q.1 = q.2) → polyEval p c 0x00#8 = v) ∧
  (∀ (p : ReductionPoly) (x y : Byte), x ≠ 0x00#8 → lagrange0 p [(x, y)] = some y) ∧
  ∀ (p : ReductionPoly) (points points' : List (Byte × Byte)), points'.Perm points → Interpolable (points.map Prod.fst) →
    lagrange0 p points' = lagrange0 p points

/-- R141 and the closed form of R140: the reference procedure's weights are the closed form's, and XOR to one. -/
def Obligations.WeightsHaveTheClosedForm : Prop :=
  ∀ (p : ReductionPoly) (xs : List Byte), Interpolable xs →
    ∃ ws, weights p xs = some ws ∧ ws.length = xs.length ∧ gfSum ws = 0x01#8 ∧
      ∀ (j : Nat) (x : Byte), xs[j]? = some x → closedWeight p x (xs.eraseIdx j) = ws[j]?

/-- R142. -/
def Obligations.LagrZeroAnswersInEveryCase : Prop :=
  (∀ s : State, exec (.lagr0 []) s = .next (answered [0x03#8] s)) ∧
  (∀ (points : List (Byte × Byte)) (s : State), Interpolable (points.map Prod.fst) →
    ∃ v, lagrange0 s.config.poly points = some v ∧ exec (.lagr0 points) s = .next (answered [0x00#8, v] s)) ∧
  (∀ (points : List (Byte × Byte)) (s : State), points ≠ [] → ¬ Interpolable (points.map Prod.fst) →
    ∃ v, exec (.lagr0 points) s = .next (answered [0x00#8, v] (afterDraws 1 s))) ∧
  (∀ (x y : Byte) (s : State), x ≠ 0x00#8 → exec (.lagr0 [(x, y)]) s = .next (answered [0x00#8, y] s)) ∧
  (∀ (points : List (Byte × Byte)) (v : Byte) (s : State), Interpolable (points.map Prod.fst) →
    (∀ q ∈ points, q.2 = v) → exec (.lagr0 points) s = .next (answered [0x00#8, v] s)) ∧
  (∀ (points points' : List (Byte × Byte)) (s : State), points'.Perm points → Interpolable (points.map Prod.fst) →
    exec (.lagr0 points') s = exec (.lagr0 points) s) ∧
  (∀ points : List (Byte × Byte), points.length ≤ 255 →
    encode (.lagr0 points) = 0x20#8 :: byteOf points.length :: points.flatMap (fun q => [q.1, q.2]) ∧
    decode (0x20#8 :: byteOf points.length :: points.flatMap fun q => [q.1, q.2]) = .ok (.lagr0 points)) ∧
  ∀ f : Frame, f.head? = some 0x20#8 → (∀ m, f[1]? = some m → f.length ≠ 2 + 2 * m.toNat) → decode f = .error .badFrame

/-- R143: where the precondition fails, the status is OK and every byte the violation touches is a draw of its own, the next
one, of which nothing is said; no draw is given twice. That draws are numbered is the model's choice (log entry 2). -/
def Obligations.BrokenPreconditionAnswersOkWithDraws : Prop :=
  (∀ (points : List (Byte × Byte)) (s : State), points ≠ [] → ¬ Interpolable (points.map Prod.fst) →
    exec (.lagr0 points) s = .next (answered [0x00#8, Config.freeByte s.draws] (afterDraws 1 s))) ∧
  (∀ (recs : List Frame) (s : State), Supplied 33 recs → ¬ Interpolable (indexBytes (dedup recs)) →
    exec (.kcomb recs) s = .next (answered
      (0x00#8 :: (List.range 32).map fun b => Config.freeByte (s.draws + b)) (afterDraws 32 s))) ∧
  ∀ (recs : List Frame) (env : Frame) (s : State), Supplied 113 recs → SameEnvelope env recs →
    ¬ Interpolable (indexBytes (dedup (recs.map keyOf))) →
    exec (.fcomb recs) s = .next (answered
      (0x00#8 :: ((List.range 32).map (fun b => Config.freeByte (s.draws + b)) ++ env)) (afterDraws 32 s))

/-- R144: lane by lane; the combine has a value exactly where the precondition holds. -/
def Obligations.CombineInterpolatesEveryLane : Prop :=
  ∀ (p : ReductionPoly) (shares : List Frame),
    ((combine p shares).isSome = true ↔ Interpolable (indexBytes shares)) ∧
    ∀ key, combine p shares = some key →
      key.length = 32 ∧ ∀ b < 32, lagrange0 p (lanePoints b shares) = key[b]?

/-- R145. -/
def Obligations.KcombAnswersInEveryCase : Prop :=
  CombineErrors 33 .kcomb ∧
  (∀ (recs : List Frame) (s : State), Supplied 33 recs → Interpolable (indexBytes (dedup recs)) →
    ∃ key, combine s.config.poly (dedup recs) = some key ∧
      exec (.kcomb recs) s = .next (answered (0x00#8 :: key) s)) ∧
  (∀ (recs : List Frame) (s : State), Supplied 33 recs → ¬ Interpolable (indexBytes (dedup recs)) →
    ∃ key : Frame, key.length = 32 ∧ exec (.kcomb recs) s = .next (answered (0x00#8 :: key) (afterDraws 32 s))) ∧
  (∀ (x : Byte) (payload : Frame) (s : State), x ≠ 0x00#8 → payload.length = 32 →
    exec (.kcomb [x :: payload]) s = .next (answered (0x00#8 :: payload) s)) ∧
  (∀ (recs recs' : List Frame) (s : State), recs'.Perm recs → Supplied 33 recs →
    Interpolable (indexBytes (dedup recs)) → exec (.kcomb recs') s = exec (.kcomb recs) s) ∧
  ListFormat 0x21#8 .kcomb

/-- R146: any `k` or more different shares of a split combine to the secret, and through KCOMB up to 254 of them. -/
def Obligations.AnyThresholdSubsetCombinesToTheSecret : Prop :=
  ∀ (p : ReductionPoly) (secret : Frame) (n k : Nat) (r : Frame) (shares : List Frame), secret.length = 32 → ValidParams n k →
    r.length = 32 * (k - 1) → shares.Nodup → (∀ s ∈ shares, s ∈ split p secret n k r) → k ≤ shares.length →
    combine p shares = some secret ∧
    ∀ s : State, s.config.poly = p →
      (shares.length ≤ 254 → exec (.kcomb shares) s = .next (answered (0x00#8 :: secret) s)) ∧
      (shares.length = 255 → exec (.kcomb shares) s = .next (answered [0x04#8] s))

/-- R147: no check for too few or forged shares. Whatever shares pass validation, the status is OK and a key is returned; and
where the precondition of R143 holds, the key is a function of the supplied bytes and the constants alone. -/
def Obligations.NoDetectionOfTooFewShares : Prop :=
  (∀ (recs : List Frame) (s : State), Supplied 33 recs → ∃ (key : Frame) (d : Nat), key.length = 32 ∧
    exec (.kcomb recs) s = .next (answered (0x00#8 :: key) (afterDraws d s))) ∧
  (∀ (recs : List Frame) (env : Frame) (s : State), Supplied 113 recs → SameEnvelope env recs →
    ∃ (key : Frame) (d : Nat), key.length = 32 ∧
      exec (.fcomb recs) s = .next (answered (0x00#8 :: (key ++ env)) (afterDraws d s))) ∧
  (∀ (p : ReductionPoly) (recs : List Frame), Supplied 33 recs → Interpolable (indexBytes (dedup recs)) →
    ∃ key : Frame, combine p (dedup recs) = some key ∧
      ∀ s : State, s.config.poly = p → exec (.kcomb recs) s = .next (answered (0x00#8 :: key) s)) ∧
  ∀ (p : ReductionPoly) (recs : List Frame) (env : Frame), Supplied 113 recs → SameEnvelope env recs →
    Interpolable (indexBytes (dedup (recs.map keyOf))) →
    ∃ key : Frame, combine p (dedup (recs.map keyOf)) = some key ∧
      ∀ s : State, s.config.poly = p → exec (.fcomb recs) s = .next (answered (0x00#8 :: (key ++ env)) s)

/-! ### The codec -/

/-- R162, R163. -/
def Obligations.ValsplitAnswersInEveryCase : Prop :=
  (∀ (n k : U16) (s : State),
    ((n.toNat = 0 ∨ 255 < n.toNat) → exec (.valsplit n k) s = .next (answered [0x01#8] s)) ∧
    (1 ≤ n.toNat → n.toNat ≤ 255 → (k.toNat = 0 ∨ n.toNat < k.toNat) →
      exec (.valsplit n k) s = .next (answered [0x02#8] s)) ∧
    (ValidParams n.toNat k.toNat → exec (.valsplit n k) s = .next (answered [0x00#8] s))) ∧
  (∀ n k : U16, encode (.valsplit n k) = 0x30#8 :: (u16le n ++ u16le k) ∧
    decode (0x30#8 :: (u16le n ++ u16le k)) = .ok (.valsplit n k)) ∧
  WrongLengthIsBadFrame 0x30#8 5

/-- R164, R165. -/
def Obligations.ValcombAnswersInEveryCase : Prop :=
  CombineErrors 33 (.valcomb .keyShare) ∧ CombineErrors 113 (.valcomb .fullShare) ∧
  (∀ (recs : List Frame) (s : State), Supplied 33 recs →
    exec (.valcomb .keyShare recs) s = .next (answered [0x00#8] s)) ∧
  (∀ (recs : List Frame) (s : State), Supplied 113 recs →
    exec (.valcomb .fullShare recs) s = .next (answered [0x00#8] s)) ∧
  (∀ recs, Sendable recs →
    decode (0x31#8 :: 0x00#8 :: (countField recs ++ putRecords recs)) = .ok (.valcomb .keyShare recs) ∧
    decode (0x31#8 :: 0x01#8 :: (countField recs ++ putRecords recs)) = .ok (.valcomb .fullShare recs)) ∧
  ∀ f : Frame, f.head? = some 0x31#8 →
    (∀ recs, Sendable recs → f ≠ 0x31#8 :: 0x00#8 :: (countField recs ++ putRecords recs) ∧
      f ≠ 0x31#8 :: 0x01#8 :: (countField recs ++ putRecords recs)) → decode f = .error .badFrame

/-- R166: `dedup` keeps exactly the records that no earlier record equals, in input order. -/
def Obligations.DedupKeepsTheFirstOfEveryGroup : Prop :=
  ∀ recs : List Frame,
    dedup recs = (recs.zipIdx.filter fun q => decide (q.1 ∉ recs.take q.2)).map Prod.fst ∧
    dedup (dedup recs) = dedup recs ∧ dedup (recs ++ recs) = dedup recs ∧
    (dedup recs).Nodup ∧ (recs ≠ [] → dedup recs ≠ []) ∧
    ∀ (x : Byte) (a b : Frame), a ≠ b → dedup [x :: a, x :: b] = [x :: a, x :: b]

/-- R167. -/
def Obligations.DedupCommandAnswersTheSurvivors : Prop :=
  (∀ (recs : List Frame) (s : State), exec (.dedup recs) s =
    .next (answered (0x00#8 :: (countField (dedup recs) ++ (dedup recs).flatMap fun r => byteOf r.length :: r)) s)) ∧
  (∀ s : State, exec (.dedup []) s = .next (answered [0x00#8, 0x00#8, 0x00#8] s)) ∧
  ListFormat 0x32#8 .dedup

/-- R168, R160. -/
def Obligations.KframeAnswersTheKeyShare : Prop :=
  (∀ (payload : Frame) (s : State), payload.length = 32 →
    exec (.kframe 0x00#8 payload) s = .next (answered [0x12#8] s)) ∧
  (∀ (index : Byte) (payload : Frame) (s : State), index ≠ 0x00#8 → payload.length = 32 →
    exec (.kframe index payload) s = .next (answered (0x00#8 :: index :: payload) s)) ∧
  (∀ (index : Byte) (payload : Frame), payload.length = 32 →
    encode (.kframe index payload) = 0x33#8 :: index :: payload ∧
    decode (0x33#8 :: index :: payload) = .ok (.kframe index payload)) ∧
  WrongLengthIsBadFrame 0x33#8 34

/-- R169. -/
def Obligations.KunframeAnswersTheFieldsOrMalformedShare : Prop :=
  (∀ (index : Byte) (payload : Frame) (s : State), payload.length = 32 →
    exec (.kunframe (index :: payload)) s = .next (answered (0x00#8 :: index :: payload) s)) ∧
  (∀ (share : Frame) (s : State), share.length ≤ 255 → share.length ≠ 33 →
    exec (.kunframe share) s = .next (answered [0x05#8, 0x00#8, 0x00#8, byteOf share.length, 0x21#8] s)) ∧
  (∀ share : Frame, share.length ≤ 255 →
    encode (.kunframe share) = 0x34#8 :: byteOf share.length :: share ∧
    decode (0x34#8 :: byteOf share.length :: share) = .ok (.kunframe share)) ∧
  ∀ f : Frame, f.head? = some 0x34#8 → (∀ len, f[1]? = some len → f.length ≠ 2 + len.toNat) → decode f = .error .badFrame

/-- R170: the doubled list behaves as the single one up to 127 shares; from 128 on it is too long. -/
def Obligations.DuplicatesAreTolerated : Prop :=
  (∀ (recs : List Frame) (s : State), Supplied 33 recs → recs.length ≤ 127 →
    (Interpolable (indexBytes (dedup recs)) → exec (.kcomb (recs ++ recs)) s = exec (.kcomb recs) s) ∧
    (¬ Interpolable (indexBytes (dedup recs)) → ∃ key key' : Frame, key.length = 32 ∧ key'.length = 32 ∧
      exec (.kcomb (recs ++ recs)) s = .next (answered (0x00#8 :: key) (afterDraws 32 s)) ∧
      exec (.kcomb recs) s = .next (answered (0x00#8 :: key') (afterDraws 32 s)))) ∧
  (∀ (recs : List Frame) (env : Frame) (s : State), Supplied 113 recs → SameEnvelope env recs → recs.length ≤ 127 →
    (Interpolable (indexBytes (dedup (recs.map keyOf))) → exec (.fcomb (recs ++ recs)) s = exec (.fcomb recs) s) ∧
    (¬ Interpolable (indexBytes (dedup (recs.map keyOf))) → ∃ key key' : Frame, key.length = 32 ∧ key'.length = 32 ∧
      exec (.fcomb (recs ++ recs)) s = .next (answered (0x00#8 :: (key ++ env)) (afterDraws 32 s)) ∧
      exec (.fcomb recs) s = .next (answered (0x00#8 :: (key' ++ env)) (afterDraws 32 s)))) ∧
  ∀ (recs : List Frame) (s : State), 128 ≤ recs.length →
    exec (.kcomb (recs ++ recs)) s = .next (answered [0x04#8] s) ∧
    exec (.fcomb (recs ++ recs)) s = .next (answered [0x04#8] s)

/-! ### Full shares -/

/-- R182, R180. -/
def Obligations.FframeAnswersTheFullShares : Prop :=
  (∀ (env : Frame) (keyShares : List Frame) (s : State), env.length = 80 → (∀ ks ∈ keyShares, ks.length = 33) →
    ((keyShares.length = 0 ∨ 255 < keyShares.length) →
      exec (.fframe env keyShares) s = .next (answered [0x01#8] s)) ∧
    (1 ≤ keyShares.length → keyShares.length ≤ 255 →
      exec (.fframe env keyShares) s = .next (answered (0x00#8 :: keyShares.flatMap fun ks => ks ++ env) s))) ∧
  (∀ (env : Frame) (keyShares : List Frame), env.length = 80 → (∀ ks ∈ keyShares, ks.length = 33) →
    keyShares.length ≤ 65535 →
    encode (.fframe env keyShares) = 0x40#8 :: (countField keyShares ++ env ++ keyShares.flatten) ∧
    decode (0x40#8 :: (countField keyShares ++ env ++ keyShares.flatten)) = .ok (.fframe env keyShares)) ∧
  ∀ f : Frame, f.head? = some 0x40#8 →
    (∀ lo hi, f[1]? = some lo → f[2]? = some hi → f.length ≠ 83 + 33 * (lo.toNat + 256 * hi.toNat)) →
    decode f = .error .badFrame

/-- R183, R184. -/
def Obligations.FunframeAnswersInEveryCase : Prop :=
  CombineErrors 113 .funframe ∧ EnvelopeError .funframe ∧
  (∀ (recs : List Frame) (env : Frame) (s : State), Supplied 113 recs → SameEnvelope env recs →
    exec (.funframe recs) s =
      .next (answered (0x00#8 :: (countField recs ++ env ++ recs.flatMap keyOf)) s)) ∧
  ListFormat 0x41#8 .funframe

/-- R185, without its words on the source. -/
def Obligations.FsplitAnswersInEveryCase : Prop :=
  (∀ (n k : U16) (key env : Frame) (s : State), key.length = 32 → env.length = 80 →
    ((n.toNat = 0 ∨ 255 < n.toNat) → exec (.fsplit n k key env) s = .next (answered [0x01#8] s)) ∧
    (1 ≤ n.toNat → n.toNat ≤ 255 → (k.toNat = 0 ∨ n.toNat < k.toNat) →
      exec (.fsplit n k key env) s = .next (answered [0x02#8] s)) ∧
    (ValidParams n.toNat k.toNat → k.toNat = 1 → exec (.fsplit n k key env) s =
      .next (answered (0x00#8 :: (List.range n.toNat).flatMap fun i => byteOf (i + 1) :: (key ++ env)) s)) ∧
    (ValidParams n.toNat k.toNat → 2 ≤ k.toNat → ∀ rest, s.rng = .fail :: rest →
      exec (.fsplit n k key env) s = .next (answered [0x06#8] (afterAnswer rest s))) ∧
    (ValidParams n.toNat k.toNat → 2 ≤ k.toNat → ∀ r rest, s.rng = .bytes r :: rest →
      r.length = 32 * (k.toNat - 1) → exec (.fsplit n k key env) s =
        .next (answered (0x00#8 :: (split s.config.poly key n.toNat k.toNat r).flatMap fun ks => ks ++ env)
          (afterAnswer rest s)))) ∧
  (∀ (n k : U16) (key env : Frame), key.length = 32 → env.length = 80 →
    encode (.fsplit n k key env) = 0x42#8 :: (u16le n ++ u16le k ++ key ++ env) ∧
    decode (0x42#8 :: (u16le n ++ u16le k ++ key ++ env)) = .ok (.fsplit n k key env)) ∧
  WrongLengthIsBadFrame 0x42#8 117

/-- R185 "The result is exactly that of KSPLIT followed by FFRAME with the same `envelope`". -/
def Obligations.FsplitIsKsplitThenFframe : Prop :=
  ∀ (n k : U16) (key env : Frame) (s : State), key.length = 32 → env.length = 80 → ValidParams n.toNat k.toNat →
    (k.toNat = 1 ∨ ∃ r rest, s.rng = .bytes r :: rest ∧ r.length = 32 * (k.toNat - 1)) →
    ∃ (body full : Frame) (t : State),
      exec (.ksplit n k key) s = .next (answered (0x00#8 :: body) t) ∧
      exec (.fframe env (takeChunks 33 n.toNat body)) t = .next (answered (0x00#8 :: full) t) ∧
      exec (.fsplit n k key env) s = .next (answered (0x00#8 :: full) t)

/-- R186. -/
def Obligations.FcombAnswersInEveryCase : Prop :=
  CombineErrors 113 .fcomb ∧ EnvelopeError .fcomb ∧
  (∀ (recs : List Frame) (env : Frame) (s : State), Supplied 113 recs → SameEnvelope env recs →
    Interpolable (indexBytes (dedup (recs.map keyOf))) →
    ∃ key, combine s.config.poly (dedup (recs.map keyOf)) = some key ∧
      exec (.fcomb recs) s = .next (answered (0x00#8 :: (key ++ env)) s)) ∧
  (∀ (recs : List Frame) (env : Frame) (s : State), Supplied 113 recs → SameEnvelope env recs →
    ¬ Interpolable (indexBytes (dedup (recs.map keyOf))) →
    ∃ key : Frame, key.length = 32 ∧
      exec (.fcomb recs) s = .next (answered (0x00#8 :: (key ++ env)) (afterDraws 32 s))) ∧
  (∀ (recs : List Frame) (env : Frame), Supplied 113 recs → SameEnvelope env recs →
    dedup (recs.map keyOf) = (dedup recs).map keyOf) ∧
  ListFormat 0x43#8 .fcomb

/-- The authenticated path, from 41_polyeval.md and 44_fullshare.md: any `k` or more different full shares of one FSPLIT give
the key and the envelope back through FCOMB. -/
def Obligations.FullSharesCombineToKeyAndEnvelope : Prop :=
  ∀ (key env : Frame) (n k : Nat) (r : Frame) (shares : List Frame) (s : State), key.length = 32 → env.length = 80 →
    ValidParams n k → r.length = 32 * (k - 1) → shares.Nodup →
    (∀ f ∈ shares, ∃ ks ∈ split s.config.poly key n k r, f = ks ++ env) → k ≤ shares.length → shares.length ≤ 254 →
    exec (.fcomb shares) s = .next (answered (0x00#8 :: (key ++ env)) s)

/-- FFRAME undoes FUNFRAME, and KUNFRAME undoes KFRAME (43_codec.md R160 "inverse to each other"). -/
def Obligations.FramingUndoesUnframing : Prop :=
  (∀ (recs : List Frame) (env : Frame) (s : State), Supplied 113 recs → SameEnvelope env recs →
    exec (.funframe recs) s =
      .next (answered (0x00#8 :: (countField recs ++ env ++ (recs.map keyOf).flatten)) s) ∧
    exec (.fframe env (recs.map keyOf)) s = .next (answered (0x00#8 :: recs.flatten) s)) ∧
  ∀ (index : Byte) (payload : Frame) (s : State), index ≠ 0x00#8 → payload.length = 32 →
    ∃ share : Frame, share.length = 33 ∧ exec (.kframe index payload) s = .next (answered (0x00#8 :: share) s) ∧
      exec (.kunframe share) s = .next (answered (0x00#8 :: index :: payload) s)

/-! ### Encoding -/

/-- No bit of a command is lost in its frame. -/
def Obligations.DecodeUndoesEncode : Prop :=
  ∀ i : Instr, wellFormed i = true → decode (encode i) = .ok i

/-- Every frame that is a command is that command's own frame, so no two frames mean the same command. -/
def Obligations.EncodeUndoesDecode : Prop :=
  ∀ (f : Frame) (i : Instr), decode f = .ok i → wellFormed i = true ∧ encode i = f

/-- R76: a frame with a legal opcode is a command exactly when its length is the one its own header implies (and, for
VALCOMB, its kind is `00` or `01`); otherwise, and when it is empty, it is a BadFrame. -/
def Obligations.FrameLengthDecidesWellFormedness : Prop :=
  decode [] = .error .badFrame ∧
  ∀ (f : Frame) (op : Byte) (o : Opcode), f.head? = some op → opcodeOf op = some o →
    ((∃ i, decode f = .ok i) ↔
      f.length = impliedLength (byteAt f) ∧ (o = .valcomb → (byteAt f 1).toNat ≤ 1)) ∧
    ((∃ i, decode f = .ok i) ∨ decode f = .error .badFrame)

/-- R81: every other opcode is IllegalOpcode whatever follows, before any length is looked at. -/
def Obligations.UnassignedOpcodesAreIllegal : Prop :=
  (∀ (op : Byte) (rest : Frame) (s : State),
    op.toNat ∉ [0x01, 0x02, 0x03, 0x10, 0x11, 0x20, 0x21, 0x30, 0x31, 0x32, 0x33, 0x34, 0x40, 0x41, 0x42, 0x43] →
    s.phase = .idle → s.cmd.head? = some (op :: rest) →
    step s = .next (answered [0x11#8] { s with cmd := s.cmd.tail })) ∧
  (∀ (o : Opcode) (s : State), s.phase = .idle → s.cmd.head? = some [opcodeByte o] →
    step s = .next (answered [0x12#8] { s with cmd := s.cmd.tail })) ∧
  (∀ s : State, s.phase = .idle → s.cmd.head? = some [] →
    step s = .next (answered [0x12#8] { s with cmd := s.cmd.tail })) ∧
  ∀ (kind : Byte) (rest : Frame), 2 ≤ kind.toNat → decode (0x31#8 :: kind :: rest) = .error .badFrame

/-- Words written out from R71 to R75 and R80. -/
def Obligations.WrittenOutFramesDecode : Prop :=
  decode [0x01#8, 0x57#8, 0x83#8] = .ok (.gfadd 0x57#8 0x83#8) ∧
  decode [0x03#8, 0x53#8] = .ok (.gfinv 0x53#8) ∧
  decode [0x10#8, 0x03#8, 0x02#8, 0x2A#8, 0x01#8, 0x02#8] = .ok (.peval 0x02#8 [0x2A#8, 0x01#8, 0x02#8]) ∧
  decode [0x20#8, 0x02#8, 0x01#8, 0x29#8, 0x02#8, 0x20#8] = .ok (.lagr0 [(0x01#8, 0x29#8), (0x02#8, 0x20#8)]) ∧
  decode [0x30#8, 0x05#8, 0x00#8, 0x06#8, 0x00#8] = .ok (.valsplit 0x0005#16 0x0006#16) ∧
  decode [0x30#8, 0x00#8, 0x01#8, 0x01#8, 0x00#8] = .ok (.valsplit 0x0100#16 0x0001#16) ∧
  decode [0x32#8, 0x02#8, 0x00#8, 0x02#8, 0x01#8, 0xAA#8, 0x00#8] = .ok (.dedup [[0x01#8, 0xAA#8], []]) ∧
  decode [0x31#8, 0x01#8, 0x00#8, 0x00#8] = .ok (.valcomb .fullShare []) ∧
  decode [0x34#8, 0x02#8, 0x01#8, 0x2B#8] = .ok (.kunframe [0x01#8, 0x2B#8]) ∧
  decode [0x81#8, 0x01#8, 0x02#8] = .error .illegalOpcode ∧
  decode [0x21#8, 0x01#8, 0x00#8, 0x01#8, 0x02#8, 0x03#8] = .error .badFrame

/-! ### The machine -/

/-- R50, R205: a step executes the command its frame decodes to, with the frame taken from the port, or goes on with the one in
flight; a frame that is no command gets IllegalOpcode or BadFrame. -/
def Obligations.StepRunsTheDecodedCommand : Prop :=
  (∀ (s : State) (f : Frame) (rest : List Frame) (i : Instr), s.phase = .idle → s.cmd = f :: rest → decode f = .ok i →
    step s = exec i { s with phase := .busy f, cmd := rest }) ∧
  (∀ (s : State) (f : Frame) (i : Instr), s.phase = .busy f → decode f = .ok i → step s = exec i s) ∧
  (∀ (s : State) (f : Frame) (rest : List Frame), s.phase = .idle → s.cmd = f :: rest →
    (decode f = .error .illegalOpcode → step s = .next (answered [0x11#8] { s with cmd := rest })) ∧
    (decode f = .error .badFrame → step s = .next (answered [0x12#8] { s with cmd := rest })))

/-- With no command in flight and none waiting nothing happens. The model's choice, log entry 5. -/
def Obligations.IdleUnitWaitsForTheHost : Prop :=
  ∀ s : State, s.phase = .idle → s.cmd = [] → step s = .next s

/-- The unit never stops: every frame, on every state, has a next state (60_exceptions.md R200, R205). Two of these next states
are the model's choice and no rule of the spec: that of an idle unit without a frame (log entry 5), and that of a split without
a random answer (log entry 4; R236, U10 and D12 would leave that command without a step). -/
def Obligations.EveryStepHasANextState : Prop :=
  (∀ (i : Instr) (s : State), ∃ t, exec i s = .next t) ∧ ∀ s : State, ∃ t, step s = .next t

/-- R51, R50: a command whose random answer, if it needs one, is there is answered in one step by exactly one response. -/
def Obligations.ReadyCommandIsAnsweredInOneStep : Prop :=
  ∀ (s : State) (f : Frame) (rest : List Frame), s.phase = .idle → s.cmd = f :: rest →
    (∀ i, decode f = .ok i → RandomReady i s) →
    ∃ (r : Frame) (t : State), step s = .next t ∧ t.phase = .idle ∧ t.cmd = rest ∧ t.rsp = s.rsp ++ [r] ∧
      LegalResponse r

/-- What every command leaves unchanged when it goes on: the waiting frames, the constants and the responses already
delivered; the random port unless it is a split that asks (R44); the draws unless the engine's precondition fails (R143). The counter of draws (log entry 2), and that a split without a random
answer has a next state, the old one (log entry 4), are the model's choice. -/
def Obligations.CommandsChangeNothingElse : Prop :=
  ∀ (i : Instr) (s t : State), exec i s = .next t →
    t.cmd = s.cmd ∧ t.config = s.config ∧ t.draws = s.draws + drawsNeeded i ∧
    (randomNeed i = 0 → t.rng = s.rng) ∧
    ((t.phase = .idle ∧ ∃ r, t.rsp = s.rsp ++ [r]) ∨ (AsksRandom i ∧ t = s))

/-- R44: a split with valid parameters and `k >= 2` asks, once, for `32 * (k - 1)` bytes, and no other command asks. -/
def Obligations.OnlyValidatedSplitsReadTheRandomPort : Prop :=
  (∀ (i : Instr) (s t : State), exec i s = .next t → t.rng ≠ s.rng →
    ∃ (n k : U16), ((∃ secret, i = .ksplit n k secret) ∨ ∃ key env, i = .fsplit n k key env) ∧
      ValidParams n.toNat k.toNat ∧ 2 ≤ k.toNat ∧
      (s.rng = .fail :: t.rng ∨ ∃ r, s.rng = .bytes r :: t.rng ∧ r.length = 32 * (k.toNat - 1))) ∧
  (∀ (n k : U16) (secret key env : Frame) (s : State), ValidParams n.toNat k.toNat → k.toNat = 1 →
    ∃ body body' : Frame, exec (.ksplit n k secret) s = .next (answered (0x00#8 :: body) s) ∧
      exec (.fsplit n k key env) s = .next (answered (0x00#8 :: body') s)) ∧
  ∀ (n k : U16) (secret key env r : Frame) (rest : List RngAnswer) (s : State), ValidParams n.toNat k.toNat →
    2 ≤ k.toNat → s.rng = .bytes r :: rest → r.length = 32 * (k.toNat - 1) →
    ∃ body body' : Frame, exec (.ksplit n k secret) s = .next (answered (0x00#8 :: body) (afterAnswer rest s)) ∧
      exec (.fsplit n k key env) s = .next (answered (0x00#8 :: body') (afterAnswer rest s))

/-- After R20: a response is a function of the frame's command, the constants, for a split that asks the answer of the random
port, and where the precondition of R143 fails the draws; and of nothing else in the state. R20 relates no two draws: that equal
draw numbers give equal bytes, on which the case `drawsNeeded i ≠ 0` rests, is the model's choice (log entry 2, unsafe where two
runs are compared). -/
def Obligations.ResponseDependsOnNothingElse : Prop :=
  ∀ (i : Instr) (s s' t t' : State), exec i s = .next t → exec i s' = .next t' → s.config = s'.config →
    (AsksRandom i → s.rng.head? = s'.rng.head?) → (drawsNeeded i ≠ 0 → s.draws = s'.draws) →
    t.rsp.drop s.rsp.length = t'.rsp.drop s'.rsp.length

/-- R206: an error response is the only effect of its command, apart from the random port's `Fail` it may have taken. -/
def Obligations.ErrorsHaveNoOtherEffect : Prop :=
  ∀ (i : Instr) (s t : State) (r : Frame), exec i s = .next t → t.rsp = s.rsp ++ [r] → r.head? ≠ some 0x00#8 →
    t = answered r s ∨ (r = [0x06#8] ∧ ∃ rest, s.rng = .fail :: rest ∧ t = answered r (afterAnswer rest s))

/-- R77, R78: the ten status bytes, the error bodies, and the body length of every OK response. -/
def Obligations.ResponseHasTheStatusAndBodyOfItsCommand : Prop :=
  (∀ (i : Instr) (s t : State) (r : Frame), exec i s = .next t → t.rsp = s.rsp ++ [r] → LegalResponse r) ∧
  ∀ (i : Instr) (s t : State) (body : Frame), wellFormed i = true → exec i s = .next t →
    t.rsp = s.rsp ++ [0x00#8 :: body] → body.length = okBodyLength i

/-- R236: a split that the random port has not answered keeps the unit busy, for any number of steps, and no later command is
taken; when the answer comes, the command completes. That it waits in steps that change nothing is the model's choice (log
entries 3 and 4). -/
def Obligations.UnansweredSplitStaysBusy : Prop :=
  (∀ (s : State) (f : Frame) (rest : List Frame) (i : Instr), s.phase = .idle → s.cmd = f :: rest → decode f = .ok i →
    AsksRandom i → s.rng = [] → step s = .next { s with phase := .busy f, cmd := rest }) ∧
  (∀ (k : Nat) (s : State) (f : Frame) (i : Instr), s.phase = .busy f → decode f = .ok i → AsksRandom i → s.rng = [] →
    Host.Core.run Sys2Proof.core k s = .next s) ∧
  ∀ (s : State) (f r : Frame) (i : Instr), s.phase = .busy f → decode f = .ok i → AsksRandom i → s.rng = [] →
    r.length = randomNeed i →
    ∃ body, step (supply (.bytes r) s) = .next (answered (0x00#8 :: body) s)

/-- R50 "the frame waits and is not lost or reordered": a frame offered while there is a command to run changes nothing but that
it is there afterwards, behind the others. -/
def Obligations.OfferedFrameWaitsItsTurn : Prop :=
  ∀ (s t : State) (g : Frame), (s.phase ≠ .idle ∨ s.cmd ≠ []) → step s = .next t →
    step (offer g s) = .next (offer g t)

/-- R230: the unit right after reset, and after a reset at any time. The values of `POLY` and of the ports `CMD` and `RNG` in
`State.reset` are the model's (log entries 1, 3 and 6), and nothing is said of them. -/
def Obligations.ResetLeavesTheUnitIdle : Prop :=
  State.reset.phase = .idle ∧ State.reset.rsp = [] ∧
  ∀ s : State, (applyReset s).phase = .idle ∧ (applyReset s).config = s.config

/-- R231: reset of a busy unit abandons the command without a response, and of an idle one changes nothing; the constants are
not affected. That waiting frames and delivered responses stay is the model's reading, log entry 8. -/
def Obligations.ResetAbandonsTheCommandInFlight : Prop :=
  (∀ (s : State) (f : Frame), s.phase = .busy f →
    (applyReset s).phase = .idle ∧ (applyReset s).rsp = s.rsp ∧ (applyReset s).config = s.config ∧
    (s.cmd = [] → step (applyReset s) = .next (applyReset s)) ∧
    ∀ g rest i, s.cmd = g :: rest → decode g = .ok i →
      step (applyReset s) = exec i { s with phase := .busy g, cmd := rest }) ∧
  ∀ s : State, s.phase = .idle → applyReset s = s

/-- R84 on FSPLIT after VALSPLIT: it "validates `n` and `k` again, which changes nothing". -/
def Obligations.RevalidationChangesNothing : Prop :=
  (∀ (key env : Frame) (n k : U16), expand (.createShares key env n k) = [.valsplit n k, .fsplit n k key env]) ∧
  (∀ (n k : U16) (key env : Frame) (s : State) (e : Byte), e ≠ 0x00#8 →
    (exec (.valsplit n k) s = .next (answered [e] s) ↔
      (exec (.fsplit n k key env) s = .next (answered [e] s) ∧ ¬ ValidParams n.toNat k.toNat)))

/-- Invariant: responses are legal, and a busy unit is a split waiting for its random bytes. That such a wait has steps at all is
the model's choice (log entry 4). -/
def Obligations.EveryStepKeepsTheInvariant : Prop :=
  ∀ s t : State, Inv s → step s = .next t → Inv t

/-- The invariant holds right after reset. -/
def Obligations.ResetMeetsTheInvariant : Prop := Inv State.reset

/-- R50, R25: over any number of steps from any state, responses are only added, frames and random answers only taken from
the front, `POLY` never changes, and every frame taken is one response delivered or the one command in flight. The counter of
draws, and the steps of a unit that waits, are the model's choice (log entries 2, 4 and 5). -/
def Obligations.EveryRunKeepsThePortsInOrder : Prop :=
  ∀ (k : Nat) (s t : State), Host.Core.run Sys2Proof.core k s = .next t →
    s.rsp <+: t.rsp ∧ t.cmd <:+ s.cmd ∧ t.rng <:+ s.rng ∧ t.config = s.config ∧ s.draws ≤ t.draws ∧
    t.cmd.length + inFlight t + t.rsp.length = s.cmd.length + inFlight s + s.rsp.length

/-- R20, R207: the commands of a run do not see each other. Frames that need neither the random port nor a draw are answered, in
order, each as a unit fresh from reset would answer it alone. -/
def Obligations.CommandsDoNotSeeEachOther : Prop :=
  ∀ s : State, s.phase = .idle → (∀ f ∈ s.cmd, SelfContained f) →
    Host.Core.run Sys2Proof.core s.cmd.length s =
      .next { s with cmd := [], rsp := s.rsp ++ s.cmd.map (soloResponse s.config) }
end

