-- ==== Sys2Proof/Laws/State.lean ====
section
/-! SUPPORT. One lemma per field of State per update, so that no proof unfolds a record update. -/

namespace Sys2Proof.Machine

@[simp] theorem deliver_phase (r : Frame) (s : State) : (deliver r s).phase = .idle := rfl
@[simp] theorem deliver_cmd (r : Frame) (s : State) : (deliver r s).cmd = s.cmd := rfl
@[simp] theorem deliver_rsp (r : Frame) (s : State) : (deliver r s).rsp = s.rsp ++ [r] := rfl
@[simp] theorem deliver_rng (r : Frame) (s : State) : (deliver r s).rng = s.rng := rfl
@[simp] theorem deliver_config (r : Frame) (s : State) : (deliver r s).config = s.config := rfl
@[simp] theorem deliver_draws (r : Frame) (s : State) : (deliver r s).draws = s.draws := rfl

@[simp] theorem answered_phase (r : Frame) (s : State) : (answered r s).phase = .idle := rfl
@[simp] theorem answered_cmd (r : Frame) (s : State) : (answered r s).cmd = s.cmd := rfl
@[simp] theorem answered_rsp (r : Frame) (s : State) : (answered r s).rsp = s.rsp ++ [r] := rfl
@[simp] theorem answered_rng (r : Frame) (s : State) : (answered r s).rng = s.rng := rfl
@[simp] theorem answered_config (r : Frame) (s : State) : (answered r s).config = s.config := rfl
@[simp] theorem answered_draws (r : Frame) (s : State) : (answered r s).draws = s.draws := rfl

@[simp] theorem afterAnswer_phase (rest : List RngAnswer) (s : State) : (afterAnswer rest s).phase = s.phase := rfl
@[simp] theorem afterAnswer_cmd (rest : List RngAnswer) (s : State) : (afterAnswer rest s).cmd = s.cmd := rfl
@[simp] theorem afterAnswer_rsp (rest : List RngAnswer) (s : State) : (afterAnswer rest s).rsp = s.rsp := rfl
@[simp] theorem afterAnswer_rng (rest : List RngAnswer) (s : State) : (afterAnswer rest s).rng = rest := rfl
@[simp] theorem afterAnswer_config (rest : List RngAnswer) (s : State) : (afterAnswer rest s).config = s.config := rfl
@[simp] theorem afterAnswer_draws (rest : List RngAnswer) (s : State) : (afterAnswer rest s).draws = s.draws := rfl

@[simp] theorem afterDraws_phase (n : Nat) (s : State) : (afterDraws n s).phase = s.phase := rfl
@[simp] theorem afterDraws_cmd (n : Nat) (s : State) : (afterDraws n s).cmd = s.cmd := rfl
@[simp] theorem afterDraws_rsp (n : Nat) (s : State) : (afterDraws n s).rsp = s.rsp := rfl
@[simp] theorem afterDraws_rng (n : Nat) (s : State) : (afterDraws n s).rng = s.rng := rfl
@[simp] theorem afterDraws_config (n : Nat) (s : State) : (afterDraws n s).config = s.config := rfl
@[simp] theorem afterDraws_draws (n : Nat) (s : State) : (afterDraws n s).draws = s.draws + n := rfl

@[simp] theorem offer_phase (f : Frame) (s : State) : (offer f s).phase = s.phase := rfl
@[simp] theorem offer_cmd (f : Frame) (s : State) : (offer f s).cmd = s.cmd ++ [f] := rfl
@[simp] theorem offer_rsp (f : Frame) (s : State) : (offer f s).rsp = s.rsp := rfl
@[simp] theorem offer_rng (f : Frame) (s : State) : (offer f s).rng = s.rng := rfl
@[simp] theorem offer_config (f : Frame) (s : State) : (offer f s).config = s.config := rfl
@[simp] theorem offer_draws (f : Frame) (s : State) : (offer f s).draws = s.draws := rfl

@[simp] theorem supply_phase (a : RngAnswer) (s : State) : (supply a s).phase = s.phase := rfl
@[simp] theorem supply_cmd (a : RngAnswer) (s : State) : (supply a s).cmd = s.cmd := rfl
@[simp] theorem supply_rsp (a : RngAnswer) (s : State) : (supply a s).rsp = s.rsp := rfl
@[simp] theorem supply_rng (a : RngAnswer) (s : State) : (supply a s).rng = s.rng ++ [a] := rfl
@[simp] theorem supply_config (a : RngAnswer) (s : State) : (supply a s).config = s.config := rfl
@[simp] theorem supply_draws (a : RngAnswer) (s : State) : (supply a s).draws = s.draws := rfl

@[simp] theorem applyReset_phase (s : State) : (applyReset s).phase = .idle := rfl
@[simp] theorem applyReset_cmd (s : State) : (applyReset s).cmd = s.cmd := rfl
@[simp] theorem applyReset_rsp (s : State) : (applyReset s).rsp = s.rsp := rfl
@[simp] theorem applyReset_rng (s : State) : (applyReset s).rng = s.rng := rfl
@[simp] theorem applyReset_config (s : State) : (applyReset s).config = s.config := rfl
@[simp] theorem applyReset_draws (s : State) : (applyReset s).draws = s.draws := rfl

@[simp] theorem withFetchWord_phase (s : State) (nbits w : Nat) : (s.withFetchWord nbits w).phase = .idle := rfl
@[simp] theorem withFetchWord_cmd (s : State) (nbits w : Nat) : (s.withFetchWord nbits w).cmd = tableFrame nbits w :: s.cmd := rfl
@[simp] theorem withFetchWord_rsp (s : State) (nbits w : Nat) : (s.withFetchWord nbits w).rsp = s.rsp := rfl
@[simp] theorem withFetchWord_rng (s : State) (nbits w : Nat) : (s.withFetchWord nbits w).rng = s.rng := rfl
@[simp] theorem withFetchWord_config (s : State) (nbits w : Nat) : (s.withFetchWord nbits w).config = s.config := rfl
@[simp] theorem withFetchWord_draws (s : State) (nbits w : Nat) : (s.withFetchWord nbits w).draws = s.draws := rfl

end Sys2Proof.Machine
end

