-- ==== Sys2Proof/Laws/Ops.lean ====
section
/-! SUPPORT. What each shared operation comes to, once; every later proof cites these. -/

namespace Sys2Proof.Machine

@[simp] theorem responseFrame_eq (st : Status) (body : Frame) : responseFrame st body = statusByte st :: body := by
  simp [responseFrame, memWrite]

theorem deliver_eq_answered (r : Frame) (s : State) : deliver r s = answered r s := rfl

theorem ret_eq (body : Frame) (s : State) : ret body s = .next (answered (0x00#8 :: body) s) := by
  simp [ret, deliver_eq_answered, statusByte]

theorem raise_eq (e : Error) (s : State) :
    raise e s = .next (answered (statusByte (errorStatus e) :: errorBody e) s) := by
  simp [raise, deliver_eq_answered]

theorem retDrawn_eq (n : Nat) (tail : Frame) (s : State) :
    retDrawn n tail s = .next (answered (0x00#8 :: (drawnBytes n s ++ tail)) (afterDraws n s)) := by
  simp [retDrawn, ret_eq, afterDraws]

@[simp] theorem length_drawnBytes (n : Nat) (s : State) : (drawnBytes n s).length = n := by simp [drawnBytes]

theorem legalResponse_ok (body : Frame) : LegalResponse (0x00#8 :: body) := .inl ⟨body, rfl⟩

theorem legalResponse_error (e : Error) : LegalResponse (statusByte (errorStatus e) :: errorBody e) := by
  cases e with
  | malformedShare index observed expected => exact .inr (.inl ⟨_, rfl, rfl⟩)
  | invalidCount => exact .inr (.inr ⟨0x01#8, by decide, rfl⟩)
  | invalidThreshold => exact .inr (.inr ⟨0x02#8, by decide, rfl⟩)
  | emptyInput => exact .inr (.inr ⟨0x03#8, by decide, rfl⟩)
  | tooManyShares => exact .inr (.inr ⟨0x04#8, by decide, rfl⟩)
  | randomSourceFailure => exact .inr (.inr ⟨0x06#8, by decide, rfl⟩)
  | invZero => exact .inr (.inr ⟨0x10#8, by decide, rfl⟩)
  | illegalOpcode => exact .inr (.inr ⟨0x11#8, by decide, rfl⟩)
  | badFrame => exact .inr (.inr ⟨0x12#8, by decide, rfl⟩)

/-- All that one request of the random port can come to. -/
theorem rngRead_cases (n : Nat) (s : State) :
    (∃ rest, s.rng = .fail :: rest ∧ rngRead n s = .failed (afterAnswer rest s)) ∨
    (∃ r rest, s.rng = .bytes r :: rest ∧ r.length = n ∧ rngRead n s = .answered r (afterAnswer rest s)) ∨
    rngRead n s = .unanswered := by
  match h : s.rng with
  | [] => simp [rngRead, h]
  | .fail :: rest => exact .inl ⟨rest, rfl, by simp [rngRead, h, afterAnswer]⟩
  | .bytes r :: rest =>
    by_cases hr : r.length = n
    · exact .inr (.inl ⟨r, rest, rfl, hr, by simp [rngRead, h, hr, afterAnswer]⟩)
    · exact .inr (.inr (by simp [rngRead, h, hr]))

theorem rngRead_fail {n : Nat} {s : State} {rest : List RngAnswer} (h : s.rng = .fail :: rest) :
    rngRead n s = .failed (afterAnswer rest s) := by
  simp [rngRead, h, afterAnswer]

theorem rngRead_bytes {n : Nat} {s : State} {r : Frame} {rest : List RngAnswer} (h : s.rng = .bytes r :: rest)
    (hr : r.length = n) : rngRead n s = .answered r (afterAnswer rest s) := by
  simp [rngRead, h, hr, afterAnswer]

/-- All that `fetch` can find (R50). -/
theorem fetch_cases (s : State) :
    (∃ f, s.phase = .busy f ∧ fetch s = some (f, s)) ∨
    (s.phase = .idle ∧ s.cmd = [] ∧ fetch s = none) ∨
    ∃ f rest, s.phase = .idle ∧ s.cmd = f :: rest ∧ fetch s = some (f, { s with phase := .busy f, cmd := rest }) := by
  match hp : s.phase with
  | .busy f => exact .inl ⟨f, rfl, by simp [fetch, hp]⟩
  | .idle =>
    match hc : s.cmd with
    | [] => exact .inr (.inl ⟨rfl, rfl, by simp [fetch, hp, hc]⟩)
    | f :: rest => exact .inr (.inr ⟨f, rest, rfl, rfl, by simp [fetch, hp, hc]⟩)

end Sys2Proof.Machine
end

