-- ==== Sys2Proof/Laws/Exec.lean ====
section
/-! SUPPORT. Everything a command can do, said once: `exec` answers a legal response, having consumed at most one random
answer and the draws it needs, or it waits for the random port. -/

namespace Sys2Proof.Machine

/-- The engine has no value for the points of the command, so `n` draws stand for the bytes it would give (R143). -/
def EngineFails (p : ReductionPoly) : Instr → Nat → Prop
  | .lagr0 points, n => n = 1 ∧ points.length ≠ 0 ∧ lagrange0 p points = none
  | .kcomb recs, n => n = 32 ∧ validateCombine recs 33 = none ∧ combine p (dedup recs) = none
  | .fcomb recs, n => n = 32 ∧ validateFull recs = none ∧ combine p (dedup (recs.map keySharePart)) = none
  | _, _ => False

/-- What one executed command comes to. -/
inductive Does (i : Instr) (s : State) : Outcome → Prop where
  /-- A response, nothing else touched. -/
  | answers (r : Frame) (h : LegalResponse r) : Does i s (.next (answered r s))
  /-- An OK response with draws in it (R143). -/
  | draws (n : Nat) (body : Frame) (h : EngineFails s.config.poly i n) :
      Does i s (.next (answered (0x00#8 :: body) (afterDraws n s)))
  /-- The random port gave its bytes (R43). -/
  | splits (body r : Frame) (rest : List RngAnswer) (ha : AsksRandom i) (hs : s.rng = .bytes r :: rest)
      (hr : r.length = randomNeed i) : Does i s (.next (answered (0x00#8 :: body) (afterAnswer rest s)))
  /-- The random port failed (R202). -/
  | randomFails (rest : List RngAnswer) (ha : AsksRandom i) (hs : s.rng = .fail :: rest) :
      Does i s (.next (answered [0x06#8] (afterAnswer rest s)))
  /-- The random port has not answered (R236). -/
  | waits (ha : AsksRandom i) : Does i s (.next s)

theorem does_ret {i : Instr} {s : State} (body : Frame) : Does i s (ret body s) := by
  rw [ret_eq]
  exact .answers _ (legalResponse_ok body)

theorem does_raise {i : Instr} {s : State} (e : Error) : Does i s (raise e s) := by
  rw [raise_eq]
  exact .answers _ (legalResponse_error e)

theorem does_retDrawn {i : Instr} {s : State} {n : Nat} (tail : Frame) (h : EngineFails s.config.poly i n) :
    Does i s (retDrawn n tail s) := by
  rw [retDrawn_eq]
  exact .draws n _ h

/-- The split KSPLIT and FSPLIT share. -/
theorem does_splitCommand {i : Instr} {n k : U16} {secret : Frame} {frame : Frame → Frame} {s : State}
    (hi : randomNeed i = if validateSplit n k = none then 32 * (k.toNat - 1) else 0) :
    Does i s (splitCommand n k secret frame s) := by
  unfold splitCommand
  split
  · exact does_raise _
  · next hv =>
    simp only [hv, if_true] at hi
    by_cases hk : k.toNat = 1
    · simp only [splitRandom, hk, if_true]
      exact does_ret _
    · have hk0 : k.toNat ≠ 0 := by
        intro h0
        simp only [validateSplit, h0] at hv
        split at hv <;> simp at hv
      have ha : AsksRandom i := by
        simp only [AsksRandom, hi]
        omega
      simp only [splitRandom, hk, if_false]
      obtain ⟨rest, hs, h⟩ | ⟨r, rest, hs, hr, h⟩ | h := rngRead_cases (Config.L * (k.toNat - 1)) s
      · rw [h]
        simp only [raise_eq]
        exact .randomFails rest ha hs
      · rw [h]
        simp only [ret_eq]
        exact .splits _ r rest ha hs (hr.trans hi.symm)
      · rw [h]
        exact .waits ha

theorem does_combineCommand {i : Instr} {s : State} {shares : List Frame} (tail : Frame)
    (h : combine s.config.poly shares = none → EngineFails s.config.poly i Config.L) :
    Does i s (combineCommand shares tail s) := by
  unfold combineCommand
  split
  · exact does_ret _
  · next hc => exact does_retDrawn _ (h hc)

/-- Everything a command can do. -/
theorem exec_does (i : Instr) (s : State) : Does i s (exec i s) := by
  cases i with
  | gfadd a b => exact does_ret _
  | gfmul a b => exact does_ret _
  | gfinv a =>
    simp only [exec, execGfinv]
    split
    · exact does_raise _
    · exact does_ret _
  | peval x c =>
    simp only [exec, execPeval]
    split
    · exact does_raise _
    · exact does_ret _
  | ksplit n k secret => exact does_splitCommand rfl
  | lagr0 points =>
    simp only [exec, execLagr0]
    split
    · exact does_raise _
    · next hp =>
      split
      · exact does_ret _
      · next hl => exact does_retDrawn _ ⟨rfl, hp, hl⟩
  | kcomb recs =>
    simp only [exec, execKcomb]
    split
    · exact does_raise _
    · next hv => exact does_combineCommand _ fun hc => ⟨rfl, hv, hc⟩
  | valsplit n k =>
    simp only [exec, execValsplit]
    split
    · exact does_raise _
    · exact does_ret _
  | valcomb kind recs =>
    simp only [exec, execValcomb]
    split
    · exact does_raise _
    · exact does_ret _
  | dedup recs => exact does_ret _
  | kframe index payload =>
    simp only [exec, execKframe]
    split
    · exact does_raise _
    · exact does_ret _
  | kunframe share =>
    simp only [exec, execKunframe]
    split
    · exact does_ret _
    · exact does_raise _
  | fframe env keyShares =>
    simp only [exec, execFframe]
    split
    · exact does_raise _
    · exact does_ret _
  | funframe recs =>
    simp only [exec, execFunframe]
    split
    · exact does_raise _
    · exact does_ret _
  | fsplit n k key env => exact does_splitCommand rfl
  | fcomb recs =>
    simp only [exec, execFcomb]
    split
    · exact does_raise _
    · next hv => exact does_combineCommand _ fun hc => ⟨rfl, hv, hc⟩

end Sys2Proof.Machine
end

