-- ==== Sys2Proof/Laws/Operands.lean ====
section
/-! SUPPORT. What the operand forms satisfy: each reader undoes its writer, and what a reader accepts its writer gives back. -/

namespace Sys2Proof.Machine

@[simp] theorem fromU16le_u16le (v : U16) : fromU16le (v.extractLsb' 0 8) (v.extractLsb' 8 8) = v := by
  apply BitVec.eq_of_toNat_eq
  have := v.isLt
  simp only [fromU16le, BitVec.toNat_ofNat, BitVec.extractLsb'_toNat, Nat.shiftRight_eq_div_pow]
  omega

theorem toNat_fromU16le (lo hi : Byte) : (fromU16le lo hi).toNat = lo.toNat + 256 * hi.toNat := by
  have := lo.isLt
  have := hi.isLt
  simp only [fromU16le, BitVec.toNat_ofNat]
  omega

theorem u16le_fromU16le (lo hi : Byte) : u16le (fromU16le lo hi) = [lo, hi] := by
  have hl := lo.isLt
  have hh := hi.isLt
  have h1 : (fromU16le lo hi).extractLsb' 0 8 = lo := by
    apply BitVec.eq_of_toNat_eq
    simp only [BitVec.extractLsb'_toNat, toNat_fromU16le, Nat.shiftRight_eq_div_pow]
    omega
  have h2 : (fromU16le lo hi).extractLsb' 8 8 = hi := by
    apply BitVec.eq_of_toNat_eq
    simp only [BitVec.extractLsb'_toNat, toNat_fromU16le, Nat.shiftRight_eq_div_pow]
    omega
  simp [u16le, h1, h2]

@[simp] theorem length_u16le (v : U16) : (u16le v).length = 2 := rfl

theorem toNat_byteOf {n : Nat} (h : n ≤ 255) : (byteOf n).toNat = n := by
  simp only [byteOf, BitVec.toNat_ofNat]
  omega

@[simp] theorem byteOf_toNat (b : Byte) : byteOf b.toNat = b := by simp [byteOf]

theorem memRead_length_le (f : Frame) (addr n : Nat) : (memRead f addr n).length ≤ n := by
  simp [memRead]

theorem memRead_length {f : Frame} {addr n : Nat} (h : addr + n ≤ f.length) : (memRead f addr n).length = n := by
  simp only [memRead, List.length_take, List.length_drop]
  omega

theorem takePoints_putPoints (points : List (Byte × Byte)) : takePoints (putPoints points) = points := by
  induction points with
  | nil => rfl
  | cons p ps ih =>
    have : putPoints (p :: ps) = p.1 :: p.2 :: putPoints ps := by simp [putPoints]
    rw [this, takePoints, ih]

@[simp] theorem length_putPoints (points : List (Byte × Byte)) : (putPoints points).length = 2 * points.length := by
  induction points with
  | nil => rfl
  | cons p ps ih =>
    have : putPoints (p :: ps) = p.1 :: p.2 :: putPoints ps := by simp [putPoints]
    rw [this]
    simp [ih]
    omega

theorem putPoints_takePoints (n : Nat) (bs : Frame) (h : bs.length = 2 * n) :
    putPoints (takePoints bs) = bs ∧ (takePoints bs).length = n := by
  induction n generalizing bs with
  | zero =>
    obtain rfl : bs = [] := List.length_eq_zero_iff.mp (by omega)
    exact ⟨rfl, rfl⟩
  | succ n ih =>
    match bs, h with
    | x :: y :: rest, h =>
      obtain ⟨h1, h2⟩ := ih rest (by simp at h; omega)
      refine ⟨?_, by simp [takePoints, h2]⟩
      have : putPoints ((x, y) :: takePoints rest) = x :: y :: putPoints (takePoints rest) := by simp [putPoints]
      rw [takePoints, this, h1]

theorem takeChunks_flatten (size : Nat) (chunks : List Frame) (h : ∀ c ∈ chunks, c.length = size) :
    takeChunks size chunks.length chunks.flatten = chunks := by
  induction chunks with
  | nil => rfl
  | cons c cs ih =>
    have hc := h c (by simp)
    have hcs : ∀ c' ∈ cs, c'.length = size := fun c' m => h c' (by simp [m])
    simp [takeChunks, ← hc] at ih ⊢
    exact ih (by simpa [hc] using hcs)

theorem flatten_takeChunks (size n : Nat) (bs : Frame) (h : bs.length = size * n) :
    (takeChunks size n bs).flatten = bs ∧ (takeChunks size n bs).length = n ∧
      ∀ c ∈ takeChunks size n bs, c.length = size := by
  induction n generalizing bs with
  | zero =>
    obtain rfl : bs = [] := List.length_eq_zero_iff.mp (by simpa using h)
    simp [takeChunks]
  | succ n ih =>
    rw [Nat.mul_succ] at h
    obtain ⟨h1, h2, h3⟩ := ih (bs.drop size) (by simp; omega)
    refine ⟨by simp [takeChunks, h1], by simp [takeChunks, h2], ?_⟩
    intro c hc
    simp only [takeChunks, List.mem_cons] at hc
    rcases hc with rfl | hc
    · simp; omega
    · exact h3 c hc

@[simp] theorem putRecords_cons (r : Frame) (rs : List Frame) :
    putRecords (r :: rs) = byteOf r.length :: r ++ putRecords rs := by
  simp [putRecords, putRecord]

@[simp] theorem putRecords_nil : putRecords [] = [] := rfl

theorem takeRecords_putRecords (recs : List Frame) (h : ∀ r ∈ recs, r.length ≤ 255) :
    takeRecords recs.length (putRecords recs) = some recs := by
  induction recs with
  | nil => rfl
  | cons r rs ih =>
    have hr : (byteOf r.length).toNat = r.length := toNat_byteOf (h r (by simp))
    simp [takeRecords, hr, ih fun r' m => h r' (by simp [m])]

theorem putRecords_takeRecords (n : Nat) (bs : Frame) (recs : List Frame) (h : takeRecords n bs = some recs) :
    putRecords recs = bs ∧ recs.length = n ∧ ∀ r ∈ recs, r.length ≤ 255 := by
  induction n generalizing bs recs with
  | zero =>
    cases bs with
    | nil => simp [takeRecords] at h; subst h; simp
    | cons b bs => simp [takeRecords] at h
  | succ n ih =>
    cases bs with
    | nil => simp [takeRecords] at h
    | cons len rest =>
      simp only [takeRecords] at h
      split at h
      · next hle =>
        obtain ⟨rs, hrs, rfl⟩ := Option.map_eq_some_iff.mp h
        obtain ⟨h1, h2, h3⟩ := ih _ _ hrs
        have hlen : (rest.take len.toNat).length = len.toNat := by simp; omega
        refine ⟨?_, by simp [h2], ?_⟩
        · rw [putRecords_cons, hlen, byteOf_toNat, h1]
          simp
        · intro r hr
          rcases List.mem_cons.mp hr with rfl | hr
          · have := len.isLt
            omega
          · exact h3 r hr
      · cases h

end Sys2Proof.Machine
end

