-- ==== Sys2Proof/Laws/PerInstr.lean ====
section
/-! SUPPORT. The family `Opened`: the frame of a command opens with its opcode byte, so that the decoder reads its operands
by that opcode's format and by no other (30_encoding.md R80, R81). One lemma per constructor. -/

namespace Sys2Proof.Laws.Opened

def Statement (i : Instr) : Prop :=
  opcodeOf (opcodeByte (opcode i)) = some (opcode i) ∧
  decode (encode i) =
    match decodeOperands (opcode i) (encode i) with
    | none => .error .badFrame
    | some j => .ok j

theorem statement_of_opcodeOf {i : Instr} (h : opcodeOf (opcodeByte (opcode i)) = some (opcode i)) : Statement i := by
  refine ⟨h, ?_⟩
  cases hd : decodeOperands (opcode i) (encode i) <;> simp_all only [decode, encode]

theorem gfadd (a b : Byte) : Statement (.gfadd a b) := statement_of_opcodeOf rfl
theorem gfmul (a b : Byte) : Statement (.gfmul a b) := statement_of_opcodeOf rfl
theorem gfinv (a : Byte) : Statement (.gfinv a) := statement_of_opcodeOf rfl
theorem peval (x : Byte) (c : List Byte) : Statement (.peval x c) := statement_of_opcodeOf rfl
theorem ksplit (n k : U16) (secret : List Byte) : Statement (.ksplit n k secret) := statement_of_opcodeOf rfl
theorem lagr0 (points : List (Byte × Byte)) : Statement (.lagr0 points) := statement_of_opcodeOf rfl
theorem kcomb (recs : List (List Byte)) : Statement (.kcomb recs) := statement_of_opcodeOf rfl
theorem valsplit (n k : U16) : Statement (.valsplit n k) := statement_of_opcodeOf rfl
theorem valcomb (kind : ShareKind) (recs : List (List Byte)) : Statement (.valcomb kind recs) := statement_of_opcodeOf rfl
theorem dedup (recs : List (List Byte)) : Statement (.dedup recs) := statement_of_opcodeOf rfl
theorem kframe (index : Byte) (payload : List Byte) : Statement (.kframe index payload) := statement_of_opcodeOf rfl
theorem kunframe (share : List Byte) : Statement (.kunframe share) := statement_of_opcodeOf rfl
theorem fframe (env : List Byte) (keyShares : List (List Byte)) : Statement (.fframe env keyShares) := statement_of_opcodeOf rfl
theorem funframe (recs : List (List Byte)) : Statement (.funframe recs) := statement_of_opcodeOf rfl
theorem fsplit (n k : U16) (key env : List Byte) : Statement (.fsplit n k key env) := statement_of_opcodeOf rfl
theorem fcomb (recs : List (List Byte)) : Statement (.fcomb recs) := statement_of_opcodeOf rfl

end Sys2Proof.Laws.Opened
end

