-- ==== Sys2Proof/Laws/Step.lean ====
section
/-! SUPPORT. Everything one step can do (20_memory.md R50, R51), from what one command can do. -/

namespace Sys2Proof.Machine

theorem rejectFrame_eq (e : DecodeError) (s : State) :
    (e = .illegalOpcode ∧ rejectFrame e s = .next (answered [0x11#8] s)) ∨
    (e = .badFrame ∧ rejectFrame e s = .next (answered [0x12#8] s)) := by
  cases e with
  | illegalOpcode => exact .inl ⟨rfl, by simp [rejectFrame, raise_eq, statusByte, errorStatus, errorBody]⟩
  | badFrame => exact .inr ⟨rfl, by simp [rejectFrame, raise_eq, statusByte, errorStatus, errorBody]⟩

/-- A step is idle waiting, or one fetched frame executed or rejected. -/
theorem step_cases (s : State) :
    (fetch s = none ∧ step s = .next s) ∨
    (∃ f t i, fetch s = some (f, t) ∧ decode f = .ok i ∧ step s = exec i t) ∨
    ∃ f t e, fetch s = some (f, t) ∧ decode f = .error e ∧ step s = rejectFrame e t := by
  match hf : fetch s with
  | none => exact .inl ⟨rfl, by simp [step, hf]⟩
  | some (f, t) =>
    match hd : decode f with
    | .ok i => exact .inr (.inl ⟨f, t, i, rfl, hd, by simp [step, hf, hd]⟩)
    | .error e => exact .inr (.inr ⟨f, t, e, rfl, hd, by simp [step, hf, hd]⟩)

/-- A fetched frame leaves the ports `RSP` and `RNG`, the constants and the draws alone. -/
theorem fetch_frame {s t : State} {f : Frame} (h : fetch s = some (f, t)) :
    t.phase = .busy f ∧ t.rsp = s.rsp ∧ t.rng = s.rng ∧ t.config = s.config ∧ t.draws = s.draws := by
  obtain ⟨g, hp, hg⟩ | ⟨-, -, hg⟩ | ⟨g, rest, -, -, hg⟩ := fetch_cases s
  · rw [hg] at h
    obtain ⟨rfl, rfl⟩ : g = f ∧ s = t := by simpa using h
    exact ⟨hp, rfl, rfl, rfl, rfl⟩
  · rw [hg] at h
    cases h
  · rw [hg] at h
    obtain ⟨rfl, rfl⟩ : g = f ∧ _ = t := by simpa using h
    exact ⟨rfl, rfl, rfl, rfl, rfl⟩

end Sys2Proof.Machine
end

