-- ==== Sys2Proof/Machine/Listing.lean ====
section
/-! DEFINITION. The listing syntax of 30_encoding.md R83: a command written as one line of text. No step uses it. -/

namespace Sys2Proof.Machine

/-- One hexadecimal digit, capital as the spec writes them. -/
def hexDigit (n : Nat) : String := String.singleton (("0123456789ABCDEF".toList)[n]?.getD '?')

/-- A byte as two hexadecimal digits. -/
def hexPair (b : Byte) : String := hexDigit (b.toNat / 16) ++ hexDigit (b.toNat % 16)

/-- A byte operand, `0xHH` (R83). -/
def listByte (b : Byte) : String := "0x" ++ hexPair b

/-- A byte string, `h"..."`, two digits a byte, a space between bytes (R83). -/
def listString (bs : Frame) : String := "h\"" ++ " ".intercalate (bs.map hexPair) ++ "\""

/-- A 16-bit field, in decimal (R83). -/
def listField (v : U16) : String := toString v.toNat

/-- A list of records in braces; a record's length byte is not written (R83). -/
def listRecords (recs : List Frame) : String :=
  String.singleton (Char.ofNat 123) ++ ", ".intercalate (recs.map listString) ++ String.singleton (Char.ofNat 125)

/-- The mnemonic (R80). -/
def mnemonic : Opcode → String
  | .gfadd => "GFADD"
  | .gfmul => "GFMUL"
  | .gfinv => "GFINV"
  | .peval => "PEVAL"
  | .ksplit => "KSPLIT"
  | .lagr0 => "LAGR0"
  | .kcomb => "KCOMB"
  | .valsplit => "VALSPLIT"
  | .valcomb => "VALCOMB"
  | .dedup => "DEDUP"
  | .kframe => "KFRAME"
  | .kunframe => "KUNFRAME"
  | .fframe => "FFRAME"
  | .funframe => "FUNFRAME"
  | .fsplit => "FSPLIT"
  | .fcomb => "FCOMB"

/-- The operands in frame order (R83); the `k` of PEVAL is written, the `len` of KUNFRAME left out, as in the spec's own
examples. -/
def listOperands : Instr → List String
  | .gfadd a b => [listByte a, listByte b]
  | .gfmul a b => [listByte a, listByte b]
  | .gfinv a => [listByte a]
  | .peval x c => [toString c.length, listByte x, listString c]
  | .ksplit n k secret => [listField n, listField k, listString secret]
  | .lagr0 points => [toString points.length, listString (putPoints points)]
  | .kcomb recs => [toString recs.length, listRecords recs]
  | .valsplit n k => [listField n, listField k]
  | .valcomb kind recs => [listByte (kindByte kind), toString recs.length, listRecords recs]
  | .dedup recs => [toString recs.length, listRecords recs]
  | .kframe index payload => [listByte index, listString payload]
  | .kunframe share => [listString share]
  | .fframe env keyShares => toString keyShares.length :: listString env :: keyShares.map listString
  | .funframe recs => [toString recs.length, listRecords recs]
  | .fsplit n k key env => [listField n, listField k, listString key, listString env]
  | .fcomb recs => [toString recs.length, listRecords recs]

/-- A command as one line (R83). -/
def listing (i : Instr) : String := mnemonic (opcode i) ++ " " ++ ", ".intercalate (listOperands i)

end Sys2Proof.Machine
end

