-- ==== Sys2Proof/Tests/Slice0.lean ====
section
/-! SUPPORT. The model's own tests. Every expected frame and response is from 95_test_vectors.md (its number in the comment) or
written out from 30_encoding.md; then the witnesses that the statements' hypotheses can be met. -/

-- One thread at a time: the many kernel evaluations below, run side by side, would not fit the check's memory limit.
set_option Elab.async false

namespace Sys2Proof.Tests

open Sys2Proof.Machine

/-- A unit fresh from reset with one frame on its `CMD` port. -/
def unitWith (f : Frame) : State := { State.reset with cmd := [f] }

/-- The same, with one answer on the `RNG` port. -/
def unitRng (f : Frame) (a : RngAnswer) : State := { State.reset with cmd := [f], rng := [a] }

/-- The responses delivered after one step. -/
def responses (s : State) : List Frame :=
  match step s with
  | .next t => t.rsp
  | .fault _ => []
  | .refused _ => []

/-- `n` copies of a byte. -/
def times (n : Nat) (b : Byte) : Frame := List.replicate n b

theorem length_times (n : Nat) (b : Byte) : (times n b).length = n := List.length_replicate

/-- `n` consecutive bytes from `b` on. -/
def run (n b : Nat) : Frame := (List.range n).map fun i => byteOf (b + i)

/-- An example share of V112, index and repeated payload. -/
def share (x y : Byte) : Frame := x :: times 32 y

/-- A full share with the envelope `EE*80` (V174). -/
def full (x y : Byte) : Frame := share x y ++ times 80 0xEE#8

/-! ### Ill-formed terms are refused -/

theorem smoke_peval : wellFormed (.peval 0x01#8 (times 256 0x00#8)) = false := by decide +kernel
theorem smoke_ksplit : wellFormed (.ksplit 0x0001#16 0x0001#16 (times 31 0x00#8)) = false := by decide +kernel
theorem smoke_lagr0 : wellFormed (.lagr0 (List.replicate 256 (0x01#8, 0x00#8))) = false := by decide +kernel
theorem smoke_record_length : wellFormed (.kcomb [times 256 0x00#8]) = false := by decide +kernel
theorem smoke_record_count : wellFormed (.dedup (List.replicate 65536 [])) = false := by
  simp only [wellFormed, recordsFit, List.length_replicate]
  decide
theorem smoke_valcomb : wellFormed (.valcomb .keyShare [times 256 0x00#8]) = false := by decide +kernel
theorem smoke_kframe : wellFormed (.kframe 0x01#8 (times 33 0x00#8)) = false := by decide +kernel
theorem smoke_kunframe : wellFormed (.kunframe (times 256 0x00#8)) = false := by decide +kernel
theorem smoke_fframe_envelope : wellFormed (.fframe (times 79 0x00#8) []) = false := by decide +kernel
theorem smoke_fframe_keyshare : wellFormed (.fframe (times 80 0x00#8) [times 32 0x00#8]) = false := by decide +kernel
theorem smoke_fframe_count : wellFormed (.fframe (times 80 0x00#8) (List.replicate 65536 (times 33 0x00#8))) = false := by
  have h : (decide (65536 ≤ 65535)) = false := by decide
  simp only [wellFormed, List.length_replicate, h, Bool.and_false, Bool.false_and]
theorem smoke_funframe : wellFormed (.funframe [times 256 0x00#8]) = false := by decide +kernel
theorem smoke_fsplit_key : wellFormed (.fsplit 0x0001#16 0x0001#16 (times 33 0x00#8) (times 80 0x00#8)) = false := by decide +kernel
theorem smoke_fsplit_envelope : wellFormed (.fsplit 0x0001#16 0x0001#16 (times 32 0x00#8) (times 81 0x00#8)) = false := by decide +kernel
theorem smoke_fcomb : wellFormed (.fcomb [times 256 0x00#8]) = false := by decide +kernel

/-! ### Decoding: frames written out from R71 to R75 and R80 -/

/-- V11. -/
theorem decode_gfadd : decode [0x01#8, 0x57#8, 0x83#8] = .ok (.gfadd 0x57#8 0x83#8) := by rfl
/-- V21. -/
theorem decode_gfmul : decode [0x02#8, 0x57#8, 0x83#8] = .ok (.gfmul 0x57#8 0x83#8) := by rfl
/-- V36. -/
theorem decode_gfinv : decode [0x03#8, 0x53#8] = .ok (.gfinv 0x53#8) := by rfl
/-- V45. -/
theorem decode_peval :
    decode [0x10#8, 0x03#8, 0x02#8, 0x2A#8, 0x01#8, 0x02#8] = .ok (.peval 0x02#8 [0x2A#8, 0x01#8, 0x02#8]) := by rfl
/-- V105: `n` = 256, `k` = 1, low byte first. -/
theorem decode_ksplit : decode (0x11#8 :: 0x00#8 :: 0x01#8 :: 0x01#8 :: 0x00#8 :: times 32 0x2A#8) =
    .ok (.ksplit 0x0100#16 0x0001#16 (times 32 0x2A#8)) := by rfl
/-- V77. -/
theorem decode_lagr0 : decode [0x20#8, 0x02#8, 0x01#8, 0x29#8, 0x02#8, 0x20#8] =
    .ok (.lagr0 [(0x01#8, 0x29#8), (0x02#8, 0x20#8)]) := by rfl
/-- R75 with records of one and two bytes. -/
theorem decode_kcomb : decode [0x21#8, 0x02#8, 0x00#8, 0x01#8, 0xAA#8, 0x02#8, 0xBB#8, 0xCC#8] =
    .ok (.kcomb [[0xAA#8], [0xBB#8, 0xCC#8]]) := by rfl
/-- V4. -/
theorem decode_valsplit : decode [0x30#8, 0x05#8, 0x00#8, 0x06#8, 0x00#8] = .ok (.valsplit 0x0005#16 0x0006#16) := by rfl
/-- R75, kind 1. -/
theorem decode_valcomb : decode [0x31#8, 0x01#8, 0x01#8, 0x00#8, 0x01#8, 0x07#8] = .ok (.valcomb .fullShare [[0x07#8]]) := by rfl
/-- V147. -/
theorem decode_dedup : decode [0x32#8, 0x04#8, 0x00#8, 0x00#8, 0x01#8, 0x01#8, 0x00#8, 0x02#8, 0x01#8, 0x00#8] =
    .ok (.dedup [[], [0x01#8], [], [0x01#8, 0x00#8]]) := by rfl
/-- V150. -/
theorem decode_kframe : decode (0x33#8 :: 0x05#8 :: run 32 0) = .ok (.kframe 0x05#8 (run 32 0)) := by decide +kernel
/-- V156. -/
theorem decode_kunframe : decode [0x34#8, 0x02#8, 0x01#8, 0x2B#8] = .ok (.kunframe [0x01#8, 0x2B#8]) := by rfl
/-- V177. -/
theorem decode_fframe : decode (0x40#8 :: 0x02#8 :: 0x00#8 :: (run 80 0x80 ++ share 0x00#8 0x11#8 ++ share 0x01#8 0x12#8)) =
    .ok (.fframe (run 80 0x80) [share 0x00#8 0x11#8, share 0x01#8 0x12#8]) := by decide +kernel
/-- V172. -/
theorem decode_funframe : decode [0x41#8, 0x00#8, 0x00#8] = .ok (.funframe []) := by rfl
/-- V178. -/
theorem decode_fsplit : decode (0x42#8 :: 0x02#8 :: 0x00#8 :: 0x01#8 :: 0x00#8 :: (run 32 0x10 ++ run 80 0x80)) =
    .ok (.fsplit 0x0002#16 0x0001#16 (run 32 0x10) (run 80 0x80)) := by decide +kernel
/-- R75 with one record. -/
theorem decode_fcomb : decode [0x43#8, 0x01#8, 0x00#8, 0x02#8, 0x09#8, 0x08#8] = .ok (.fcomb [[0x09#8, 0x08#8]]) := by rfl
/-- V184, V188, V189, V190. -/
theorem decode_illegal : [[0x04#8, 0x01#8, 0x02#8], [0x44#8], [0xFF#8, 0x01#8, 0x02#8], [0x81#8, 0x01#8, 0x02#8]].all
    (fun f => decide (decode f = .error .illegalOpcode)) = true := by decide +kernel
/-- V182, V191, V193, V73, V142, V148, V149, V195, V196, V197, V198, V199. -/
theorem decode_bad_frame : [[], [0x01#8], [0x01#8, 0x02#8, 0x03#8, 0x04#8], [0x10#8, 0x02#8, 0x05#8, 0x01#8],
    [0x31#8, 0x02#8, 0x00#8, 0x00#8], [0x32#8, 0x02#8, 0x00#8, 0x02#8, 0x01#8, 0xAA#8],
    [0x32#8, 0x01#8, 0x00#8, 0x02#8, 0x01#8, 0xAA#8, 0x00#8], [0x21#8, 0x01#8, 0x00#8, 0x05#8, 0x01#8, 0x02#8],
    [0x21#8, 0x01#8, 0x00#8, 0x01#8, 0x02#8, 0x03#8], [0x21#8, 0x01#8, 0x00#8], [0x21#8, 0x00#8],
    [0x21#8, 0x00#8, 0x00#8, 0x00#8]].all (fun f => decide (decode f = .error .badFrame)) = true := by decide +kernel
/-- Every row of the opcode table, as the host numbers its bits. -/
theorem table_words_decode : (allOpcodes.map opcodeByte).all
    (fun b => ((decodeTableWord 8 b.toNat).map fun i => opcodeByte (opcode i)) == some b) = true := by decide +kernel

/-! ### One step each -/

/-- V11. -/
theorem test_gfadd : responses (unitWith [0x01#8, 0x57#8, 0x83#8]) = [[0x00#8, 0xD4#8]] := by decide +kernel
/-- V21. -/
theorem test_gfmul : responses (unitWith [0x02#8, 0x57#8, 0x83#8]) = [[0x00#8, 0xC1#8]] := by decide +kernel
/-- The columns of the 2.1 table for other values of `POLY`. -/
theorem test_gfmul_other_poly : gfMul .p11D 0x57#8 0x83#8 = 0x31#8 ∧ gfMul .p1F9 0x57#8 0x83#8 = 0x17#8 := by decide +kernel
/-- V36. -/
theorem test_gfinv : responses (unitWith [0x03#8, 0x53#8]) = [[0x00#8, 0xCA#8]] := by decide +kernel
/-- V42. -/
theorem test_gfinv_zero : responses (unitWith [0x03#8, 0x00#8]) = [[0x10#8]] := by decide +kernel
/-- V52. -/
theorem test_peval : responses (unitWith [0x10#8, 0x03#8, 0x02#8, 0x2A#8, 0x8E#8, 0xF3#8]) = [[0x00#8, 0xCC#8]] := by decide +kernel
/-- V72. -/
theorem test_peval_empty : responses (unitWith [0x10#8, 0x00#8, 0x05#8]) = [[0x02#8]] := by decide +kernel
/-- V112. -/
theorem test_ksplit : responses (unitRng (0x11#8 :: 0x03#8 :: 0x00#8 :: 0x02#8 :: 0x00#8 :: times 32 0x2A#8)
    (.bytes (times 32 0x01#8))) = [0x00#8 :: (share 0x01#8 0x2B#8 ++ share 0x02#8 0x28#8 ++ share 0x03#8 0x29#8)] := by decide +kernel
/-- V108. -/
theorem test_ksplit_fail : responses (unitRng (0x11#8 :: 0x05#8 :: 0x00#8 :: 0x03#8 :: 0x00#8 :: times 32 0x2A#8) .fail) =
    [[0x06#8]] := by decide +kernel
/-- V78. -/
theorem test_lagr0 : responses (unitWith [0x20#8, 0x03#8, 0x02#8, 0xCC#8, 0x04#8, 0x8D#8, 0x05#8, 0xF0#8]) =
    [[0x00#8, 0x2A#8]] := by decide +kernel
/-- V85: a draw, of which nothing but its number is known. -/
theorem test_lagr0_draw : responses (unitWith [0x20#8, 0x02#8, 0x01#8, 0x05#8, 0x01#8, 0x05#8]) =
    [[0x00#8, Config.freeByte 0]] := by rfl
/-- V113. -/
theorem test_kcomb : responses (unitWith (0x21#8 :: 0x02#8 :: 0x00#8 :: 0x21#8 :: (share 0x01#8 0x2B#8 ++
    0x21#8 :: share 0x03#8 0x29#8))) = [0x00#8 :: times 32 0x2A#8] := by decide +kernel
/-- V120 with the shares of V112: a record of 32 bytes at position 1. -/
theorem test_kcomb_malformed : responses (unitWith (0x21#8 :: 0x02#8 :: 0x00#8 :: 0x21#8 :: (share 0x01#8 0x2B#8 ++
    0x20#8 :: times 32 0x28#8))) = [[0x05#8, 0x01#8, 0x00#8, 0x20#8, 0x21#8]] := by decide +kernel
/-- V4 and V127. -/
theorem test_valsplit : responses (unitWith [0x30#8, 0x05#8, 0x00#8, 0x06#8, 0x00#8]) = [[0x02#8]] ∧
    responses (unitWith [0x30#8, 0x00#8, 0x00#8, 0x00#8, 0x00#8]) = [[0x01#8]] := by decide +kernel
/-- V123. -/
theorem test_valsplit_ok : responses (unitWith [0x30#8, 0xFF#8, 0x00#8, 0xFF#8, 0x00#8]) = [[0x00#8]] := by decide +kernel
/-- V136. -/
theorem test_valcomb : responses (unitWith (0x31#8 :: 0x01#8 :: 0x01#8 :: 0x00#8 :: 0x21#8 :: share 0x01#8 0x00#8)) =
    [[0x05#8, 0x00#8, 0x00#8, 0x21#8, 0x71#8]] := by decide +kernel
/-- V134. -/
theorem test_valcomb_ok : responses (unitWith (0x31#8 :: 0x00#8 :: 0x01#8 :: 0x00#8 :: 0x21#8 :: share 0x01#8 0x00#8)) =
    [[0x00#8]] := by decide +kernel
/-- V144. -/
theorem test_dedup : responses (unitWith [0x32#8, 0x03#8, 0x00#8, 0x02#8, 0x01#8, 0xAA#8, 0x02#8, 0x02#8, 0xBB#8, 0x02#8,
    0x01#8, 0xAA#8]) = [[0x00#8, 0x02#8, 0x00#8, 0x02#8, 0x01#8, 0xAA#8, 0x02#8, 0x02#8, 0xBB#8]] := by decide +kernel
/-- V150. -/
theorem test_kframe : responses (unitWith (0x33#8 :: 0x05#8 :: run 32 0)) = [0x00#8 :: 0x05#8 :: run 32 0] := by decide +kernel
/-- V152. -/
theorem test_kframe_zero : responses (unitWith (0x33#8 :: 0x00#8 :: times 32 0x07#8)) = [[0x12#8]] := by decide +kernel
/-- V155. -/
theorem test_kunframe : responses (unitWith (0x34#8 :: 0x21#8 :: share 0x00#8 0x2B#8)) = [0x00#8 :: share 0x00#8 0x2B#8] := by decide +kernel
/-- V158. -/
theorem test_kunframe_malformed : responses (unitWith (0x34#8 :: 0x22#8 :: 0x01#8 :: times 33 0x2B#8)) =
    [[0x05#8, 0x00#8, 0x00#8, 0x22#8, 0x21#8]] := by decide +kernel
/-- V174. -/
theorem test_fframe : responses (unitWith (0x40#8 :: 0x01#8 :: 0x00#8 :: (times 80 0xEE#8 ++ share 0x01#8 0x2B#8))) =
    [0x00#8 :: full 0x01#8 0x2B#8] := by decide +kernel
/-- V175. -/
theorem test_fframe_none : responses (unitWith (0x40#8 :: 0x00#8 :: 0x00#8 :: run 80 0x80)) = [[0x01#8]] := by decide +kernel
/-- The example of R184. -/
theorem test_funframe : responses (unitWith (0x41#8 :: 0x02#8 :: 0x00#8 :: 0x71#8 :: (full 0x01#8 0x2B#8 ++
    0x71#8 :: full 0x02#8 0x28#8))) =
    [0x00#8 :: 0x02#8 :: 0x00#8 :: (times 80 0xEE#8 ++ share 0x01#8 0x2B#8 ++ share 0x02#8 0x28#8)] := by decide +kernel
/-- R184, "with the second envelope changed in any byte". -/
theorem test_funframe_envelope : responses (unitWith (0x41#8 :: 0x02#8 :: 0x00#8 :: 0x71#8 :: (full 0x01#8 0x2B#8 ++
    0x71#8 :: (share 0x02#8 0x28#8 ++ times 79 0xEE#8 ++ [0xEF#8])))) =
    [[0x05#8, 0x01#8, 0x00#8, 0x71#8, 0x71#8]] := by decide +kernel
/-- The example of R185. -/
theorem test_fsplit : responses (unitRng (0x42#8 :: 0x03#8 :: 0x00#8 :: 0x02#8 :: 0x00#8 :: (times 32 0x2A#8 ++
    times 80 0xEE#8)) (.bytes (times 32 0x01#8))) =
    [0x00#8 :: (full 0x01#8 0x2B#8 ++ full 0x02#8 0x28#8 ++ full 0x03#8 0x29#8)] := by decide +kernel
/-- V180. -/
theorem test_fsplit_count : responses (unitWith (0x42#8 :: 0x00#8 :: 0x01#8 :: 0x02#8 :: 0x00#8 :: (run 32 0x10 ++
    run 80 0x80))) = [[0x01#8]] := by decide +kernel
/-- The example of R186. -/
theorem test_fcomb : responses (unitWith (0x43#8 :: 0x02#8 :: 0x00#8 :: 0x71#8 :: (full 0x01#8 0x2B#8 ++
    0x71#8 :: full 0x03#8 0x29#8))) = [0x00#8 :: (times 32 0x2A#8 ++ times 80 0xEE#8)] := by decide +kernel
/-- V6. -/
theorem test_fcomb_empty : responses (unitWith [0x43#8, 0x00#8, 0x00#8]) = [[0x03#8]] := by decide +kernel
/-- V91, lane 1 of share 2: the random bytes go lane by lane (R123). -/
theorem test_split_lane_order :
    ((split .p11B (times 32 0x2A#8) 5 3 (run 64 0))[1]?.map fun s => s.take 5) =
    some [0x02#8, 0x2E#8, 0x22#8, 0x36#8, 0x3A#8] := by decide +kernel
/-- A table word runs as the very next step after reset. -/
theorem test_fetch_word : responses (State.reset.withFetchWord 8 0x43) = [[0x03#8]] := by decide +kernel
/-- R83's own example. -/
theorem test_listing : listing (.gfmul 0x57#8 0x83#8) = "GFMUL 0x57, 0x83" := by decide +kernel

/-! ### Witnesses: concrete states and operands that meet the hypotheses of each statement, clause by clause -/

/-- A frame with the opcode `op` and `n` operand bytes. -/
def opened (op : Byte) (n : Nat) : Frame := op :: times n 0x00#8

/-- A frame opens with `op` and has not the length `len`: one byte short, and one byte long. -/
abbrev Misses (op : Byte) (len : Nat) : Prop :=
  (opened op (len - 2)).head? = some op ∧ (opened op (len - 2)).length ≠ len ∧
  (opened op len).head? = some op ∧ (opened op len).length ≠ len

/-- A format FL frame that is no list of records: its count field is cut off, so it is shorter than any. -/
theorem no_list_frame (op : Byte) :
    ([op, 0x00#8] : Frame).head? = some op ∧
    ∀ recs : List Frame, Sendable recs → ([op, 0x00#8] : Frame) ≠ op :: (countField recs ++ putRecords recs) := by
  refine ⟨rfl, fun recs _ h => ?_⟩
  have := congrArg List.length h
  simp [countField] at this
  omega

/-- The most shares a combine accepts, all alike. -/
def many (n len : Nat) : List Frame := List.replicate n (times len 0x01#8)

theorem length_many (n len : Nat) : (many n len).length = n := List.length_replicate

theorem supplied_many (len : Nat) (n : Nat) (h : 1 ≤ n ∧ n ≤ 254) : Supplied len (many n len) := by
  refine ⟨by rw [length_many]; exact h.1, by rw [length_many]; exact h.2, ?_⟩
  intro r hr
  rw [List.eq_of_mem_replicate hr]
  exact length_times _ _

/-- Two key-shares and two full shares of V112 and R185. -/
def pair : List Frame := [share 0x01#8 0x2B#8, share 0x03#8 0x29#8]

/-- See `pair`. -/
def fullPair : List Frame := [full 0x01#8 0x2B#8, full 0x03#8 0x29#8]

/-- Contradictory shares: one index, two payloads (V102). -/
def clash : List Frame := [share 0x01#8 0x2B#8, share 0x01#8 0x29#8]

/-- See `clash`. -/
def fullClash : List Frame := [full 0x01#8 0x2B#8, full 0x01#8 0x29#8]

/-- A share with index zero (V103). -/
def zeroIndex : List Frame := [share 0x00#8 0x2B#8]

/-- The frame of V112. -/
def splitFrame : Frame := 0x11#8 :: 0x03#8 :: 0x00#8 :: 0x02#8 :: 0x00#8 :: times 32 0x2A#8

/-- Its command. -/
def splitInstr : Instr := .ksplit 0x0003#16 0x0002#16 (times 32 0x2A#8)

theorem split_frame_decodes : decode splitFrame = .ok splitInstr := by decide +kernel

theorem witness_GfaddAnswersTheXor : Misses 0x01#8 3 := by decide

theorem witness_ProductIsThePolynomialRemainder :
    8 ≤ 8 ∧ (carrylessProduct 0xFF#8 0x01#8).toNat < 256 ∧ 256 ≤ (carrylessProduct 0x80#8 0x02#8).toNat := by decide +kernel

theorem witness_InverseIsUniqueAndPartial : (0x53#8 : Byte) ≠ 0x00#8 ∧ gfMul .p11B 0x53#8 0xCA#8 = 0x01#8 := by decide +kernel

theorem witness_FieldLawsHoldForEveryPoly :
    gfMul .p11D 0x00#8 0x53#8 = 0x00#8 ∧ (0xFF#8 : Byte) ≠ 0x00#8 := by decide +kernel

theorem witness_GfmulAnswersTheProduct : (0x01#8 : Byte) ≠ 0x00#8 ∧ (0xFF#8 : Byte) ≠ 0x00#8 ∧ Misses 0x02#8 3 := by decide

theorem witness_GfinvAnswersTheInverseOrInvZero :
    (0x01#8 : Byte) ≠ 0x00#8 ∧ (0xFF#8 : Byte) ≠ 0x00#8 ∧ Misses 0x03#8 2 := by decide

theorem witness_OtherFormsOfTheFieldFunctionsAgree : (0x80#8 : Byte) ≠ 0x00#8 := by decide

/-- The smallest and the largest trial divisor. -/
theorem witness_PolyIsExactlyTheIrreducibleValues :
    polyBits .p11B = 0x11B#9 ∧ 1 ∈ [1, 2, 3, 4] ∧ 2 ∈ List.range 32 ∧ 2 ^ 1 ≤ 2 ∧ 2 < 2 ^ (1 + 1) ∧
    4 ∈ [1, 2, 3, 4] ∧ 31 ∈ List.range 32 ∧ 2 ^ 4 ≤ 31 ∧ 31 < 2 ^ (4 + 1) ∧
    polyBits .p1F9 = polyBits .p1F9 := by decide

theorem witness_HornerGivesThePowerSum : ([0x00#8] : List Byte) ≠ [] := by decide

theorem witness_PevalAnswersThePolynomialValue :
    ([0x2A#8] : List Byte) ≠ [] ∧ (times 255 0xFF#8).length ≤ 255 ∧
    (([0x10#8] : Frame).head? = some 0x10#8 ∧ ∀ k, ([0x10#8] : Frame)[1]? = some k → ([0x10#8] : Frame).length ≠ 3 + k.toNat) ∧
    ([0x10#8, 0x00#8, 0x05#8, 0x01#8] : Frame)[1]? = some 0x00#8 ∧
      ([0x10#8, 0x00#8, 0x05#8, 0x01#8] : Frame).length ≠ 3 + (0x00#8 : Byte).toNat := by
  refine ⟨by decide, (length_times _ _).le, ⟨rfl, ?_⟩, rfl, by decide⟩
  intro k h
  cases h

theorem witness_SplitEvaluatesEveryLaneAtEveryIndex :
    (times 32 0x2A#8).length = 32 ∧ (ValidParams 1 1 ∧ ([] : Frame).length = 32 * (1 - 1) ∧ 0 < 1) ∧
    ValidParams 255 255 ∧ (times 8128 0x01#8).length = 32 * (255 - 1) ∧ 254 < 255 := by
  exact ⟨length_times _ _, by decide, by decide, length_times _ _, by decide⟩

theorem witness_KsplitAnswersInEveryCase :
    (times 32 0x2A#8).length = 32 ∧ (0x0000#16 : U16).toNat = 0 ∧ 255 < (0x0100#16 : U16).toNat ∧
    (1 ≤ (0x0001#16 : U16).toNat ∧ (0x00FF#16 : U16).toNat ≤ 255 ∧ (0x0000#16 : U16).toNat = 0 ∧
      (0x00FF#16 : U16).toNat < (0x0100#16 : U16).toNat) ∧
    (ValidParams (0x00FF#16 : U16).toNat (0x0001#16 : U16).toNat ∧ (0x0001#16 : U16).toNat = 1) ∧
    (ValidParams (0x0002#16 : U16).toNat (0x0002#16 : U16).toNat ∧ 2 ≤ (0x0002#16 : U16).toNat ∧
      (unitRng [] .fail).rng = .fail :: [] ∧
      (unitRng [] (.bytes (times 32 0x01#8))).rng = .bytes (times 32 0x01#8) :: [] ∧
      (times 32 0x01#8).length = 32 * ((0x0002#16 : U16).toNat - 1)) ∧ Misses 0x11#8 37 := by decide +kernel

theorem witness_InterpolationIsTheValueAtZero :
    Interpolable (([(0x01#8, 0x29#8), (0x02#8, 0x20#8), (0x03#8, 0x23#8)] : List (Byte × Byte)).map Prod.fst) ∧
    ([0x2A#8, 0x01#8, 0x02#8] : List Byte).length ≤ 3 ∧
    (∀ q ∈ ([(0x01#8, 0x29#8), (0x02#8, 0x20#8), (0x03#8, 0x23#8)] : List (Byte × Byte)),
      polyEval .p11B [0x2A#8, 0x01#8, 0x02#8] q.1 = q.2) ∧
    (0x01#8 : Byte) ≠ 0x00#8 ∧
    [((0x03#8, 0x23#8) : Byte × Byte), (0x01#8, 0x29#8)].Perm [(0x01#8, 0x29#8), (0x03#8, 0x23#8)] := by
  exact ⟨by decide, by decide, by
    simp only [List.forall_mem_cons]
    exact ⟨by decide +kernel, by decide +kernel, by decide +kernel, by simp⟩, by decide, List.Perm.swap _ _ _⟩

theorem witness_WeightsHaveTheClosedForm :
    Interpolable [0x01#8] ∧ Interpolable [0x01#8, 0xFF#8] ∧ ([0x01#8, 0xFF#8] : List Byte)[1]? = some 0xFF#8 := by decide

theorem witness_LagrZeroAnswersInEveryCase :
    Interpolable (([(0xFF#8, 0x2A#8), (0x01#8, 0x2A#8)] : List (Byte × Byte)).map Prod.fst) ∧
    (∀ q ∈ ([(0xFF#8, 0x2A#8), (0x01#8, 0x2A#8)] : List (Byte × Byte)), q.2 = 0x2A#8) ∧
    [((0x01#8, 0x2A#8) : Byte × Byte), (0xFF#8, 0x2A#8)].Perm [(0xFF#8, 0x2A#8), (0x01#8, 0x2A#8)] ∧
    ([(0x00#8, 0x06#8)] : List (Byte × Byte)) ≠ [] ∧
    ¬ Interpolable (([(0x00#8, 0x06#8)] : List (Byte × Byte)).map Prod.fst) ∧
    ¬ Interpolable (([(0x01#8, 0x05#8), (0x01#8, 0x05#8)] : List (Byte × Byte)).map Prod.fst) ∧
    (0xFF#8 : Byte) ≠ 0x00#8 ∧ (List.replicate 255 ((0x01#8, 0x00#8) : Byte × Byte)).length ≤ 255 ∧
    (([0x20#8] : Frame).head? = some 0x20#8 ∧ ∀ m, ([0x20#8] : Frame)[1]? = some m → ([0x20#8] : Frame).length ≠ 2 + 2 * m.toNat) := by
  refine ⟨by decide, by simp, List.Perm.swap _ _ _, by decide, by decide, by decide, by decide, List.length_replicate.le, rfl, ?_⟩
  intro k h
  cases h

theorem witness_BrokenPreconditionAnswersOkWithDraws :
    (([(0x01#8, 0x05#8), (0x01#8, 0x06#8)] : List (Byte × Byte)) ≠ [] ∧
      ¬ Interpolable (([(0x01#8, 0x05#8), (0x01#8, 0x06#8)] : List (Byte × Byte)).map Prod.fst)) ∧
    (Supplied 33 clash ∧ ¬ Interpolable (indexBytes (dedup clash))) ∧
    (Supplied 33 zeroIndex ∧ ¬ Interpolable (indexBytes (dedup zeroIndex))) ∧
    Supplied 113 fullClash ∧ SameEnvelope (times 80 0xEE#8) fullClash ∧
    ¬ Interpolable (indexBytes (dedup (fullClash.map keyOf))) := by decide +kernel

theorem witness_CombineInterpolatesEveryLane :
    combine .p11B pair = some (times 32 0x2A#8) ∧ 0 < 32 ∧ 31 < 32 := by decide +kernel

theorem witness_CombineErrors (len : Nat) :
    254 < (many 255 len).length ∧
    (1 ≤ (many 254 len).length ∧ (many 254 len).length ≤ 254) ∧
    FirstWrongLength 33 [share 0x01#8 0x2B#8, []] 1 [] ∧ FirstWrongLength 113 [share 0x01#8 0x2B#8] 0 (share 0x01#8 0x2B#8) := by
  simp only [length_many]
  exact ⟨by decide, by decide, by decide +kernel, by decide +kernel⟩

theorem witness_KcombAnswersInEveryCase :
    (Supplied 33 pair ∧ Interpolable (indexBytes (dedup pair))) ∧
    (Supplied 33 clash ∧ ¬ Interpolable (indexBytes (dedup clash))) ∧
    ((0x01#8 : Byte) ≠ 0x00#8 ∧ (times 32 0x2B#8).length = 32) ∧ pair.reverse.Perm pair ∧
    Supplied 33 (many 254 33) ∧ Sendable [[], times 255 0x00#8] :=
  ⟨by decide +kernel, by decide +kernel, by decide +kernel, List.reverse_perm _, supplied_many _ _ (by decide), by decide +kernel⟩

theorem witness_AnyThresholdSubsetCombinesToTheSecret :
    (times 32 0x2A#8).length = 32 ∧ ValidParams 3 2 ∧ (times 32 0x01#8).length = 32 * (2 - 1) ∧ pair.Nodup ∧
    (∀ s ∈ pair, s ∈ split .p11B (times 32 0x2A#8) 3 2 (times 32 0x01#8)) ∧ 2 ≤ pair.length ∧
    State.reset.config.poly = .p11B ∧ pair.length ≤ 254 := by decide +kernel

/-- The last clause: all 255 shares of a split in which every share carries the secret (`k` = 1). -/
theorem witness_AnyThresholdSubset_all_shares :
    ValidParams 255 1 ∧ (split .p11B (times 32 0x2A#8) 255 1 []).length = 255 ∧ 1 ≤ 255 := by
  refine ⟨by decide, by simp [split], by decide⟩

theorem witness_NoDetectionOfTooFewShares :
    (Supplied 33 [share 0x01#8 0x2B#8] ∧ Interpolable (indexBytes (dedup [share 0x01#8 0x2B#8]))) ∧
    (Supplied 113 [full 0x01#8 0x2B#8] ∧ SameEnvelope (times 80 0xEE#8) [full 0x01#8 0x2B#8] ∧
      Interpolable (indexBytes (dedup ([full 0x01#8 0x2B#8].map keyOf)))) ∧ State.reset.config.poly = .p11B := by decide +kernel

theorem witness_ValsplitAnswersInEveryCase :
    (0x0000#16 : U16).toNat = 0 ∧ 255 < (0x0100#16 : U16).toNat ∧
    (1 ≤ (0x0001#16 : U16).toNat ∧ (0x00FF#16 : U16).toNat ≤ 255 ∧ (0x0000#16 : U16).toNat = 0 ∧
      (0x00FF#16 : U16).toNat < (0x0100#16 : U16).toNat) ∧
    ValidParams (0x0001#16 : U16).toNat (0x0001#16 : U16).toNat ∧
    ValidParams (0x00FF#16 : U16).toNat (0x00FF#16 : U16).toNat ∧ Misses 0x30#8 5 := by decide +kernel

theorem witness_ValcombAnswersInEveryCase :
    Supplied 33 pair ∧ Supplied 113 fullPair ∧ Sendable [[], times 255 0x00#8] ∧
    ([0x31#8] : Frame).head? = some 0x31#8 ∧
    ∀ recs : List Frame, Sendable recs → ([0x31#8] : Frame) ≠ 0x31#8 :: 0x00#8 :: (countField recs ++ putRecords recs) ∧
      ([0x31#8] : Frame) ≠ 0x31#8 :: 0x01#8 :: (countField recs ++ putRecords recs) :=
  ⟨by decide +kernel, by decide +kernel, by decide +kernel, rfl, fun _ _ => ⟨by simp, by simp⟩⟩

theorem witness_DedupKeepsTheFirstOfEveryGroup : ([[]] : List Frame) ≠ [] ∧ ([0xAA#8] : Frame) ≠ [] := by decide

theorem witness_DedupCommandAnswersTheSurvivors :
    Sendable ([] : List Frame) ∧ Sendable [[], times 255 0x00#8] := by decide +kernel

theorem witness_KframeAnswersTheKeyShare :
    (times 32 0x07#8).length = 32 ∧ (0x01#8 : Byte) ≠ 0x00#8 ∧ (0xFF#8 : Byte) ≠ 0x00#8 ∧ Misses 0x33#8 34 := by decide +kernel

theorem witness_KunframeAnswersTheFieldsOrMalformedShare :
    (times 32 0x2B#8).length = 32 ∧ (([] : Frame).length ≤ 255 ∧ ([] : Frame).length ≠ 33) ∧
    ((times 34 0x00#8).length ≤ 255 ∧ (times 34 0x00#8).length ≠ 33) ∧ (times 255 0x00#8).length ≤ 255 ∧
    ([0x34#8] : Frame).head? = some 0x34#8 ∧
    ∀ len, ([0x34#8] : Frame)[1]? = some len → ([0x34#8] : Frame).length ≠ 2 + len.toNat := by
  refine ⟨by decide +kernel, by decide, by decide +kernel, by decide +kernel, rfl, ?_⟩
  intro k h
  cases h

theorem witness_DuplicatesAreTolerated :
    (Supplied 33 pair ∧ pair.length ≤ 127 ∧ Interpolable (indexBytes (dedup pair))) ∧
    (Supplied 33 clash ∧ clash.length ≤ 127 ∧ ¬ Interpolable (indexBytes (dedup clash))) ∧
    (Supplied 113 fullPair ∧ SameEnvelope (times 80 0xEE#8) fullPair ∧ fullPair.length ≤ 127 ∧
      Interpolable (indexBytes (dedup (fullPair.map keyOf)))) ∧
    (Supplied 113 fullClash ∧ SameEnvelope (times 80 0xEE#8) fullClash ∧ fullClash.length ≤ 127 ∧
      ¬ Interpolable (indexBytes (dedup (fullClash.map keyOf)))) ∧
    Supplied 33 (many 127 33) ∧ (many 127 33).length ≤ 127 ∧ 128 ≤ (many 128 33).length :=
  ⟨by decide +kernel, by decide +kernel, by decide +kernel, by decide +kernel, supplied_many _ _ (by decide),
    (length_many _ _).le, (length_many _ _).ge⟩

theorem witness_FframeAnswersTheFullShares :
    ((times 80 0xEE#8).length = 80 ∧ (∀ ks ∈ [share 0x01#8 0x2B#8], ks.length = 33) ∧ 1 ≤ [share 0x01#8 0x2B#8].length ∧
      [share 0x01#8 0x2B#8].length ≤ 255) ∧
    ((many 255 33).length ≤ 255 ∧ 255 < (many 256 33).length ∧ ([] : List Frame).length = 0) ∧
    (∀ ks ∈ many 256 33, ks.length = 33) ∧ (many 256 33).length ≤ 65535 ∧
    ([0x40#8] : Frame).head? = some 0x40#8 ∧
    ∀ lo hi, ([0x40#8] : Frame)[1]? = some lo → ([0x40#8] : Frame)[2]? = some hi →
      ([0x40#8] : Frame).length ≠ 83 + 33 * (lo.toNat + 256 * hi.toNat) := by
  refine ⟨by decide +kernel, by simp only [length_many]; decide, ?_, by rw [length_many]; decide, rfl, ?_⟩
  · intro ks h
    rw [List.eq_of_mem_replicate h]
    exact length_times _ _
  · intro lo hi h
    cases h

theorem witness_EnvelopeError :
    Supplied 113 [full 0x01#8 0x2B#8, share 0x02#8 0x28#8 ++ times 80 0xEF#8] ∧
    [full 0x01#8 0x2B#8, share 0x02#8 0x28#8 ++ times 80 0xEF#8][1]? = some (share 0x02#8 0x28#8 ++ times 80 0xEF#8) ∧
    envOf (share 0x02#8 0x28#8 ++ times 80 0xEF#8) ≠
      envOf ([full 0x01#8 0x2B#8, share 0x02#8 0x28#8 ++ times 80 0xEF#8].headD []) ∧
    ∀ r' ∈ [full 0x01#8 0x2B#8, share 0x02#8 0x28#8 ++ times 80 0xEF#8].take 1,
      envOf r' = envOf ([full 0x01#8 0x2B#8, share 0x02#8 0x28#8 ++ times 80 0xEF#8].headD []) := by decide +kernel

theorem witness_FunframeAnswersInEveryCase :
    Supplied 113 fullPair ∧ SameEnvelope (times 80 0xEE#8) fullPair ∧ Supplied 113 (many 254 113) :=
  ⟨by decide +kernel, by decide +kernel, supplied_many _ _ (by decide)⟩

theorem witness_FsplitAnswersInEveryCase :
    (run 32 0x10).length = 32 ∧ (run 80 0x80).length = 80 ∧
    ((0x0000#16 : U16).toNat = 0 ∧ 255 < (0x0100#16 : U16).toNat) ∧
    (1 ≤ (0x0005#16 : U16).toNat ∧ (0x0005#16 : U16).toNat ≤ 255 ∧ (0x0005#16 : U16).toNat < (0x0006#16 : U16).toNat) ∧
    (ValidParams (0x0002#16 : U16).toNat (0x0001#16 : U16).toNat ∧ (0x0001#16 : U16).toNat = 1) ∧
    (ValidParams (0x00FF#16 : U16).toNat (0x0002#16 : U16).toNat ∧ 2 ≤ (0x0002#16 : U16).toNat ∧
      (unitRng [] .fail).rng = .fail :: [] ∧
      (unitRng [] (.bytes (times 32 0xA5#8))).rng = .bytes (times 32 0xA5#8) :: [] ∧
      (times 32 0xA5#8).length = 32 * ((0x0002#16 : U16).toNat - 1)) ∧ Misses 0x42#8 117 := by decide +kernel

theorem witness_FsplitIsKsplitThenFframe :
    (run 32 0x10).length = 32 ∧ (run 80 0x80).length = 80 ∧
    (ValidParams (0x0002#16 : U16).toNat (0x0001#16 : U16).toNat ∧ (0x0001#16 : U16).toNat = 1) ∧
    ValidParams (0x0003#16 : U16).toNat (0x0002#16 : U16).toNat ∧
    ∃ r rest, (unitRng [] (.bytes (times 32 0xA5#8))).rng = .bytes r :: rest ∧ r.length = 32 * ((0x0002#16 : U16).toNat - 1) :=
  ⟨by decide +kernel, by decide +kernel, by decide, by decide, _, _, rfl, by decide +kernel⟩

theorem witness_FcombAnswersInEveryCase :
    (Supplied 113 fullPair ∧ SameEnvelope (times 80 0xEE#8) fullPair ∧
      Interpolable (indexBytes (dedup (fullPair.map keyOf)))) ∧
    Supplied 113 fullClash ∧ SameEnvelope (times 80 0xEE#8) fullClash ∧
      ¬ Interpolable (indexBytes (dedup (fullClash.map keyOf))) := by decide +kernel

theorem witness_FullSharesCombineToKeyAndEnvelope :
    (times 32 0x2A#8).length = 32 ∧ (times 80 0xEE#8).length = 80 ∧ ValidParams 3 2 ∧
    (times 32 0x01#8).length = 32 * (2 - 1) ∧ fullPair.Nodup ∧
    (∀ f ∈ fullPair, ∃ ks ∈ split State.reset.config.poly (times 32 0x2A#8) 3 2 (times 32 0x01#8), f = ks ++ times 80 0xEE#8) ∧
    2 ≤ fullPair.length ∧ fullPair.length ≤ 254 := by decide +kernel

theorem witness_FramingUndoesUnframing :
    (Supplied 113 fullPair ∧ SameEnvelope (times 80 0xEE#8) fullPair) ∧ (0x01#8 : Byte) ≠ 0x00#8 ∧
    (times 32 0x2B#8).length = 32 := by decide +kernel

theorem witness_DecodeUndoesEncode : wellFormed (.fcomb fullPair) = true ∧ wellFormed splitInstr = true := by decide +kernel

theorem witness_EncodeUndoesDecode : decode splitFrame = .ok splitInstr := split_frame_decodes

theorem witness_FrameLengthDecidesWellFormedness :
    splitFrame.head? = some 0x11#8 ∧ opcodeOf 0x11#8 = some .ksplit ∧
    ([0x31#8, 0x01#8, 0x00#8, 0x00#8] : Frame).head? = some 0x31#8 ∧ opcodeOf 0x31#8 = some .valcomb := by decide +kernel

theorem witness_UnassignedOpcodesAreIllegal :
    ((0x44#8 : Byte).toNat ∉ [0x01, 0x02, 0x03, 0x10, 0x11, 0x20, 0x21, 0x30, 0x31, 0x32, 0x33, 0x34, 0x40, 0x41, 0x42, 0x43] ∧
      (unitWith [0x44#8]).phase = .idle ∧ (unitWith [0x44#8]).cmd.head? = some (0x44#8 :: [])) ∧
    (unitWith [opcodeByte .gfadd]).cmd.head? = some [opcodeByte .gfadd] ∧
    (unitWith []).cmd.head? = some [] ∧ 2 ≤ (0x02#8 : Byte).toNat ∧ 2 ≤ (0xFF#8 : Byte).toNat := by decide +kernel

theorem witness_StepRunsTheDecodedCommand :
    ((unitWith splitFrame).phase = .idle ∧ (unitWith splitFrame).cmd = splitFrame :: [] ∧ decode splitFrame = .ok splitInstr) ∧
    (({ State.reset with phase := .busy splitFrame } : State).phase = .busy splitFrame) ∧
    (unitWith [0x44#8]).cmd = [0x44#8] :: [] ∧ decode [0x44#8] = .error .illegalOpcode ∧
    (unitWith [0x01#8]).cmd = [0x01#8] :: [] ∧ decode [0x01#8] = .error .badFrame :=
  ⟨⟨rfl, rfl, split_frame_decodes⟩, rfl, rfl, rfl, rfl, rfl⟩

theorem witness_IdleUnitWaitsForTheHost : State.reset.phase = .idle ∧ State.reset.cmd = [] := ⟨rfl, rfl⟩

theorem witness_ReadyCommandIsAnsweredInOneStep :
    let s := unitRng splitFrame (.bytes (times 32 0x01#8))
    s.phase = .idle ∧ s.cmd = splitFrame :: [] ∧ ∀ i, decode splitFrame = .ok i → RandomReady i s := by
  refine ⟨rfl, rfl, fun i h => ?_⟩
  rw [split_frame_decodes] at h
  cases h
  exact .inr ⟨[], .inr ⟨times 32 0x01#8, rfl, by decide +kernel⟩⟩

/-- A command that answers, one that asks the random port, and one that waits for it. -/
theorem witness_CommandsChangeNothingElse :
    (∃ t, exec (.gfadd 0x01#8 0x02#8) State.reset = .next t) ∧ randomNeed (.gfadd 0x01#8 0x02#8) = 0 ∧
    (∃ t, exec splitInstr State.reset = .next t ∧ t = State.reset) :=
  ⟨⟨_, rfl⟩, rfl, _, rfl, rfl⟩

theorem witness_OnlyValidatedSplitsReadTheRandomPort :
    (∃ t, exec splitInstr (unitRng [] .fail) = .next t ∧ t.rng ≠ (unitRng [] .fail).rng) ∧
    (ValidParams (0x00FF#16 : U16).toNat (0x0001#16 : U16).toNat ∧ (0x0001#16 : U16).toNat = 1) ∧
    ValidParams (0x0002#16 : U16).toNat (0x0002#16 : U16).toNat ∧ 2 ≤ (0x0002#16 : U16).toNat ∧
    (unitRng [] (.bytes (times 32 0x01#8))).rng = .bytes (times 32 0x01#8) :: [] ∧
    (times 32 0x01#8).length = 32 * ((0x0002#16 : U16).toNat - 1) :=
  ⟨⟨_, rfl, by decide +kernel⟩, ⟨by decide, by decide⟩, by decide, by decide, rfl, by decide +kernel⟩

/-- A command that draws, on two states with different histories and the same draw number. -/
theorem witness_ResponseDependsOnNothingElse_draws :
    let i : Instr := .lagr0 [(0x01#8, 0x05#8), (0x01#8, 0x06#8)]
    let s := { State.reset with draws := 7 }
    let s' := { unitRng [0x04#8] .fail with draws := 7, rsp := [[0x10#8]] }
    (∃ t, exec i s = .next t) ∧ (∃ t, exec i s' = .next t) ∧ s.config = s'.config ∧ randomNeed i = 0 ∧
    drawsNeeded i ≠ 0 ∧ s.draws = s'.draws :=
  ⟨⟨_, rfl⟩, ⟨_, rfl⟩, rfl, rfl, by decide, rfl⟩

/-- Two states with different histories and alike in what counts: a split that asks, and no draw. -/
theorem witness_ResponseDependsOnNothingElse :
    let s := unitRng [] .fail
    let s' := { unitRng [] .fail with rsp := [[0x10#8]], draws := 7 }
    (∃ t, exec splitInstr s = .next t) ∧ (∃ t, exec splitInstr s' = .next t) ∧ s.config = s'.config ∧
    s.rng.head? = s'.rng.head? ∧ drawsNeeded splitInstr = 0 :=
  ⟨⟨_, rfl⟩, ⟨_, rfl⟩, rfl, rfl, rfl⟩

theorem witness_ErrorsHaveNoOtherEffect :
    (∃ t, exec (.gfinv 0x00#8) State.reset = .next t ∧ t.rsp = State.reset.rsp ++ [[0x10#8]]) ∧
    ([0x10#8] : Frame).head? ≠ some 0x00#8 ∧
    (∃ t, exec splitInstr (unitRng [] .fail) = .next t ∧ t.rsp = (unitRng [] .fail).rsp ++ [[0x06#8]]) ∧
    ([0x06#8] : Frame).head? ≠ some 0x00#8 :=
  ⟨⟨answered [0x10#8] State.reset, by rw [show exec (.gfinv 0x00#8) State.reset = raise .invZero State.reset from by
      simp only [exec, execGfinv, show gfInv State.reset.config.poly 0x00#8 = none from by decide +kernel]]; exact raise_eq _ _, rfl⟩,
    by decide, ⟨_, rfl, rfl⟩, by decide⟩

theorem witness_ResponseHasTheStatusAndBodyOfItsCommand :
    wellFormed (.gfadd 0x01#8 0x02#8) = true ∧
    ∃ t, exec (.gfadd 0x01#8 0x02#8) State.reset = .next t ∧ t.rsp = State.reset.rsp ++ [0x00#8 :: [0x03#8]] :=
  ⟨rfl, _, rfl, rfl⟩

theorem witness_UnansweredSplitStaysBusy :
    ((unitWith splitFrame).phase = .idle ∧ (unitWith splitFrame).cmd = splitFrame :: [] ∧ decode splitFrame = .ok splitInstr ∧
      AsksRandom splitInstr ∧ (unitWith splitFrame).rng = []) ∧
    ({ State.reset with phase := .busy splitFrame } : State).phase = .busy splitFrame ∧
    (times 32 0x01#8).length = randomNeed splitInstr :=
  ⟨⟨rfl, rfl, split_frame_decodes, by decide +kernel, rfl⟩, rfl, by decide +kernel⟩

theorem witness_OfferedFrameWaitsItsTurn :
    (unitWith [0x01#8]).cmd ≠ [] ∧ (∃ t, step (unitWith [0x01#8]) = .next t) ∧
    ({ State.reset with phase := .busy splitFrame } : State).phase ≠ .idle :=
  ⟨by decide, ⟨_, rfl⟩, by decide⟩

theorem witness_ResetAbandonsTheCommandInFlight :
    let s := { State.reset with phase := .busy splitFrame, cmd := [[0x01#8, 0x02#8, 0x03#8]] }
    s.phase = .busy splitFrame ∧ s.cmd = [0x01#8, 0x02#8, 0x03#8] :: [] ∧
    decode [0x01#8, 0x02#8, 0x03#8] = .ok (.gfadd 0x02#8 0x03#8) ∧
    ({ State.reset with phase := .busy splitFrame } : State).cmd = [] ∧ State.reset.phase = .idle :=
  ⟨rfl, rfl, rfl, rfl, rfl⟩

theorem witness_RevalidationChangesNothing : (0x01#8 : Byte) ≠ 0x00#8 ∧ (0x02#8 : Byte) ≠ 0x00#8 := by decide

/-- A state no run from reset need reach: a legal response delivered, a split in flight. -/
theorem witness_EveryStepKeepsTheInvariant :
    Inv { State.reset with phase := .busy splitFrame, rsp := [[0x10#8]] } ∧
    ∃ t, step { State.reset with phase := .busy splitFrame, rsp := [[0x10#8]] } = .next t := by
  refine ⟨⟨?_, ?_⟩, ?_⟩
  · intro r hr
    obtain rfl : r = [0x10#8] := by simpa using hr
    exact legalResponse_error .invZero
  · intro f hf
    cases hf
    exact ⟨splitInstr, split_frame_decodes, by decide +kernel⟩
  · obtain ⟨-, h⟩ | ⟨f, t, i, -, -, h⟩ | ⟨f, t, e, -, -, h⟩ :=
      step_cases { State.reset with phase := .busy splitFrame, rsp := [[0x10#8]] }
    · exact ⟨_, h⟩
    · rw [h]
      have hd := exec_does i t
      generalize exec i t = o at hd ⊢
      cases hd <;> exact ⟨_, rfl⟩
    · rw [h]
      obtain ⟨-, h⟩ | ⟨-, h⟩ := rejectFrame_eq e t <;> exact ⟨_, h⟩

theorem witness_EveryRunKeepsThePortsInOrder :
    ∃ t, Host.Core.run Sys2Proof.core 1 (unitWith [0x01#8, 0x57#8, 0x83#8]) = .next t := ⟨_, rfl⟩

theorem witness_CommandsDoNotSeeEachOther :
    (unitWith [0x01#8, 0x57#8, 0x83#8]).phase = .idle ∧
    ∀ f ∈ (unitWith [0x01#8, 0x57#8, 0x83#8]).cmd, SelfContained f := by
  refine ⟨rfl, fun f hf i hi => ?_⟩
  obtain rfl : f = [0x01#8, 0x57#8, 0x83#8] := by simpa [unitWith] using hf
  rw [decode_gfadd] at hi
  cases hi
  exact ⟨rfl, rfl⟩

end Sys2Proof.Tests
end

section
/-! The admissible values of `POLY` (00_scope.md R7): the names listed once, and trial division by the irreducible
polynomials of degree 1 to 4. -/

namespace Sys2Proof.Machine

/-- Every name of a `POLY`, in the order of R7. -/
def allPolys : List ReductionPoly :=
  [.p11B, .p11D, .p12B, .p12D, .p139, .p13F, .p14D, .p15F, .p163, .p165,
   .p169, .p171, .p177, .p17B, .p187, .p18B, .p18D, .p19F, .p1A3, .p1A9,
   .p1B1, .p1BD, .p1C3, .p1CF, .p1D7, .p1DD, .p1E7, .p1F3, .p1F5, .p1F9]

theorem mem_allPolys (p : ReductionPoly) : p ∈ allPolys := by cases p <;> decide

theorem exists_polyBits_eq_iff_mem (v : BitVec 9) : (∃ p, polyBits p = v) ↔ v ∈ allPolys.map polyBits := by
  simp [List.mem_map, mem_allPolys]

theorem polyBits_injective : Function.Injective polyBits := fun p q h =>
  List.inj_on_of_nodup_map (f := polyBits) (l := allPolys) (by decide) (mem_allPolys p) (mem_allPolys q) h

theorem polyBits_bit_eight (p : ReductionPoly) : (polyBits p).getLsbD 8 = true := by cases p <;> rfl

/-- The irreducible polynomials of degree 1 to 4, each with its degree: the divisors that suffice in trial division. -/
def smallIrreducibles : List (Nat × Nat) := [(2, 1), (3, 1), (7, 2), (11, 3), (13, 3), (19, 4), (25, 4), (31, 4)]

theorem smallIrreducibles_degree :
    ∀ t ∈ smallIrreducibles, t.2 ∈ [1, 2, 3, 4] ∧ t.1 ∈ List.range 32 ∧ 2 ^ t.2 ≤ t.1 ∧ t.1 < 2 ^ (t.2 + 1) := by
  decide

/-- No divisor of degree 1 to 4 leaves the remainder zero on the bits of a name. -/
theorem remainder_polyBits_ne_zero (p : ReductionPoly) :
    ∀ top ∈ [1, 2, 3, 4], ∀ d ∈ List.range 32, 2 ^ top ≤ d → d < 2 ^ (top + 1) →
      remainder (polyBits p).toNat d top ≠ 0 := by
  have all : ∀ q ∈ allPolys, ∀ top ∈ [1, 2, 3, 4], ∀ d ∈ List.range 32, 2 ^ top ≤ d → d < 2 ^ (top + 1) →
      remainder (polyBits q).toNat d top ≠ 0 := by decide +kernel
  exact all p (mem_allPolys p)

/-- Trial division by `smallIrreducibles` alone sieves the values with bit 8 set down to the named ones. -/
theorem mem_polyBits_of_not_divisible : ∀ v : BitVec 9, v.getLsbD 8 = true →
    (∀ t ∈ smallIrreducibles, remainder v.toNat t.1 t.2 ≠ 0) → v ∈ allPolys.map polyBits := by decide +kernel

theorem mem_polyBits_iff_toNat_mem (v : BitVec 9) :
    v ∈ allPolys.map polyBits ↔ v.toNat ∈ allPolys.map (BitVec.toNat ∘ polyBits) := by
  rw [← List.map_map, List.mem_map_of_injective fun _ _ => BitVec.eq_of_toNat_eq]

/-- Settles O8: a named value survives every trial division; a value that survives the irreducible divisors is named. -/
theorem polyIsExactlyTheIrreducibleValues : Obligations.PolyIsExactlyTheIrreducibleValues := by
  refine ⟨fun v => ⟨?_, ?_⟩, fun p q h => polyBits_injective h, fun v => ?_⟩
  · rintro ⟨p, rfl⟩
    exact ⟨polyBits_bit_eight p, remainder_polyBits_ne_zero p⟩
  · rintro ⟨hbit, hdiv⟩
    have survives : ∀ t ∈ smallIrreducibles, remainder v.toNat t.1 t.2 ≠ 0 := fun t ht =>
      let ⟨htop, hd, hlo, hhi⟩ := smallIrreducibles_degree t ht
      hdiv t.2 htop t.1 hd hlo hhi
    exact (exists_polyBits_eq_iff_mem v).2 (mem_polyBits_of_not_divisible v hbit survives)
  · exact (exists_polyBits_eq_iff_mem v).trans (mem_polyBits_iff_toNat_mem v)

end Sys2Proof.Machine
end

section
/-! The field's bytes as polynomials over GF(2) (00_scope.md R7, R8; 40_field.md R101): `gfMul` is the product modulo
`POLY`, `remainder` the remainder of Euclid's division, and each admissible `POLY` is irreducible. So a product of
non-zero bytes is not zero, and `gfInv` has a value at every other byte than `0x00` (R102). -/

namespace Sys2Proof.Machine

open Polynomial

/-- The polynomial over GF(2) whose coefficient of `X^i` is bit `i` of `v` (R8). -/
noncomputable def toPoly (v : ℕ) : (ZMod 2)[X] := ∑ i ∈ Finset.range v.size, if v.testBit i then X ^ i else 0

theorem coeff_sum_bits (n v j : ℕ) :
    (∑ i ∈ Finset.range n, if v.testBit i then (X ^ i : (ZMod 2)[X]) else 0).coeff j =
      if j < n ∧ v.testBit j then 1 else 0 := by
  have term (i : ℕ) : (if v.testBit i then (X ^ i : (ZMod 2)[X]) else 0).coeff j =
      if j = i then (if v.testBit j then 1 else 0) else 0 := by
    by_cases hv : v.testBit i <;> by_cases hj : j = i <;> simp_all [coeff_X_pow]
  simp only [finsetSum_coeff, term, Finset.sum_ite_eq, Finset.mem_range, ite_and]

theorem coeff_toPoly (v j : ℕ) : (toPoly v).coeff j = if v.testBit j then 1 else 0 := by
  have hj : v.testBit j → j < v.size := fun h => Nat.lt_size.2 (Nat.ge_two_pow_of_testBit h)
  simp only [toPoly, coeff_sum_bits, and_iff_right_of_imp hj]

theorem toPoly_eq_sum {n v : ℕ} (h : v < 2 ^ n) :
    toPoly v = ∑ i ∈ Finset.range n, if v.testBit i then X ^ i else 0 := by
  ext j
  have hj : v.testBit j → j < n := fun hb =>
    (Nat.pow_lt_pow_iff_right Nat.one_lt_two).1 ((Nat.ge_two_pow_of_testBit hb).trans_lt h)
  simp only [coeff_toPoly, coeff_sum_bits, and_iff_right_of_imp hj]

theorem toPoly_injective : Function.Injective toPoly := fun v w h => by
  refine Nat.eq_of_testBit_eq fun j => ?_
  have hj : (toPoly v).coeff j = (toPoly w).coeff j := by rw [h]
  rw [coeff_toPoly, coeff_toPoly] at hj
  cases hv : v.testBit j <;> cases hw : w.testBit j <;> simp [hv, hw] at hj ⊢

@[simp] theorem toPoly_zero : toPoly 0 = 0 := by simp [toPoly]

theorem toPoly_eq_zero_iff (v : ℕ) : toPoly v = 0 ↔ v = 0 := by rw [← toPoly_zero, toPoly_injective.eq_iff]

theorem toPoly_xor (v w : ℕ) : toPoly (v ^^^ w) = toPoly v + toPoly w := by
  ext j
  by_cases hv : v.testBit j <;> by_cases hw : w.testBit j <;> simp [coeff_toPoly, hv, hw, CharTwo.add_self_eq_zero]

theorem toPoly_shiftLeft (v k : ℕ) : toPoly (v <<< k) = toPoly v * X ^ k := by
  ext j
  by_cases hk : k ≤ j <;> simp [coeff_toPoly, coeff_mul_X_pow', hk]

theorem degree_toPoly_lt {v n : ℕ} (h : v < 2 ^ n) : (toPoly v).degree < n := by
  refine (degree_lt_iff_coeff_zero _ _).2 fun j hj => ?_
  simp [coeff_toPoly, Nat.testBit_lt_two_pow (h.trans_le (Nat.pow_le_pow_right Nat.two_pos hj))]

/-- Bit `top` is the leading bit of `v`. -/
abbrev LeadingBit (v top : ℕ) : Prop := 2 ^ top ≤ v ∧ v < 2 ^ (top + 1)

theorem LeadingBit.testBit {v top : ℕ} (h : LeadingBit v top) : v.testBit top = true :=
  Nat.testBit_of_two_pow_le_and_two_pow_add_one_gt h.1 h.2

theorem degree_toPoly {v top : ℕ} (h : LeadingBit v top) : (toPoly v).degree = top := by
  refine degree_eq_of_le_of_coeff_ne_zero ((degree_le_iff_coeff_zero _ _).2 fun j hj => ?_) ?_
  · have hlt : v < 2 ^ j := h.2.trans_le (Nat.pow_le_pow_right Nat.two_pos (by exact_mod_cast hj))
    simp [coeff_toPoly, Nat.testBit_lt_two_pow hlt]
  · simp [coeff_toPoly, h.testBit]

theorem LeadingBit.toPoly_ne_zero {v top : ℕ} (h : LeadingBit v top) : toPoly v ≠ 0 := by
  rw [Ne, toPoly_eq_zero_iff]
  exact (Nat.two_pow_pos top |>.trans_le h.1).ne'

/-- Every non-zero polynomial over GF(2) is the polynomial of a number, whose leading bit is its degree. -/
theorem exists_toPoly_eq {q : (ZMod 2)[X]} (hq : q ≠ 0) : ∃ d, LeadingBit d q.natDegree ∧ toPoly d = q := by
  have bit : ∀ c : ZMod 2, (if c = 1 then 1 else 0) = c := by decide
  have hd : toPoly (Nat.ofBits fun i : Fin (q.natDegree + 1) => decide (q.coeff i = 1)) = q := by
    ext j
    by_cases hj : j < q.natDegree + 1
    · simp [coeff_toPoly, Nat.testBit_ofBits_lt _ _ hj, bit]
    · simp [coeff_toPoly, Nat.testBit_ofBits_ge _ _ (not_lt.1 hj), coeff_eq_zero_of_natDegree_lt (not_lt.1 hj)]
  refine ⟨_, ⟨Nat.ge_two_pow_of_testBit ?_, Nat.ofBits_lt_two_pow _⟩, hd⟩
  have lead : q.coeff q.natDegree = 1 := (by decide : ∀ c : ZMod 2, c ≠ 0 → c = 1) _ (leadingCoeff_ne_zero.2 hq)
  rw [Nat.testBit_ofBits_lt _ _ (Nat.lt_succ_self _)]
  exact decide_eq_true lead

/-! Euclid's division, bit by bit from the top. -/

/-- One round of the division leaves the class modulo the divisor alone. -/
theorem toPoly_divideBit_mod (d top v i : ℕ) : toPoly (divideBit d top v i) % toPoly d = toPoly v % toPoly d := by
  unfold divideBit
  split
  · rw [toPoly_xor, toPoly_shiftLeft, add_mod, (EuclideanDomain.mod_eq_zero).2 (dvd_mul_right _ _), add_zero]
  · rfl

theorem toPoly_foldl_divideBit_mod (d top v : ℕ) (l : List ℕ) :
    toPoly (l.foldl (divideBit d top) v) % toPoly d = toPoly v % toPoly d := by
  induction l generalizing v with
  | nil => rfl
  | cons i l ih => rw [List.foldl_cons, ih, toPoly_divideBit_mod]

theorem lt_two_pow_of_testBit_false {v i : ℕ} (h : v < 2 ^ (i + 1)) (hi : v.testBit i = false) : v < 2 ^ i := by
  refine Nat.lt_pow_two_of_testBit v fun j hj => ?_
  obtain rfl | hj := hj.eq_or_lt
  · exact hi
  · exact Nat.testBit_lt_two_pow (h.trans_le (Nat.pow_le_pow_right Nat.two_pos hj))

/-- The round at bit `i` clears that bit, unless the remainder is already shorter than the divisor. -/
theorem divideBit_lt {d top v i : ℕ} (hd : LeadingBit d top) (hv : v < 2 ^ max (i + 1) top) :
    divideBit d top v i < 2 ^ max i top := by
  unfold divideBit
  by_cases hi : top ≤ i
  · rw [max_eq_left (by omega)] at hv ⊢
    cases hb : v.testBit i with
    | false => simpa using lt_two_pow_of_testBit_false hv hb
    | true =>
      have hs : d <<< (i - top) < 2 ^ (i + 1) := by
        rw [Nat.shiftLeft_eq, show i + 1 = top + 1 + (i - top) by omega, pow_add 2 (top + 1)]
        exact Nat.mul_lt_mul_of_pos_right hd.2 (Nat.two_pow_pos _)
      have hbit : (d <<< (i - top)).testBit i = true := by simp [Nat.sub_sub_self hi, hd.testBit]
      simpa [hi] using lt_two_pow_of_testBit_false (Nat.xor_lt_two_pow hv hs) (by rw [Nat.testBit_xor, hb, hbit]; rfl)
  · rw [max_eq_right (by omega)] at hv ⊢
    simpa [hi] using hv

/-- The rounds from bit `m + n - 1` down to bit `m`. -/
theorem foldl_divideBit_lt {d top v m n : ℕ} (hd : LeadingBit d top) (hv : v < 2 ^ max (m + n) top) :
    (List.range' m n).reverse.foldl (divideBit d top) v < 2 ^ max m top := by
  induction n generalizing v with
  | zero => exact hv
  | succ n ih =>
    rw [List.range'_1_concat, List.reverse_append]
    exact ih (divideBit_lt hd hv)

/-- A number congruent to `v` and shorter than the divisor is the remainder of `v`. -/
theorem toPoly_eq_mod {d top r v : ℕ} (hd : LeadingBit d top) (hr : r < 2 ^ top)
    (h : toPoly r % toPoly d = toPoly v % toPoly d) : toPoly r = toPoly v % toPoly d := by
  rw [← h, eq_comm, mod_eq_self_iff hd.toPoly_ne_zero, degree_toPoly hd]
  exact degree_toPoly_lt hr

theorem toPoly_remainder {v d top : ℕ} (hv : v < 2 ^ 9) (hd : LeadingBit d top) (htop : 1 ≤ top ∧ top ≤ 8) :
    toPoly (remainder v d top) = toPoly v % toPoly d := by
  refine toPoly_eq_mod hd ?_ (toPoly_foldl_divideBit_mod d top v _)
  have hlt : (List.range' 1 8).reverse.foldl (divideBit d top) v < 2 ^ max 1 top :=
    foldl_divideBit_lt hd (by rwa [max_eq_left (by omega)])
  rwa [max_eq_right htop.1] at hlt

/-! The product of two bytes. -/

theorem toNat_setWidth_shiftLeft {n : ℕ} (v : BitVec n) {i : ℕ} (h : n + i ≤ 15) :
    (v.setWidth 15 <<< i).toNat = v.toNat <<< i := by
  have hn : v.toNat < 2 ^ 15 := v.isLt.trans_le (Nat.pow_le_pow_right Nat.two_pos (by omega))
  have hs : v.toNat <<< i < 2 ^ 15 := by
    rw [Nat.shiftLeft_eq]
    calc v.toNat * 2 ^ i < 2 ^ n * 2 ^ i := Nat.mul_lt_mul_of_pos_right v.isLt (Nat.two_pow_pos i)
      _ = 2 ^ (n + i) := (pow_add 2 n i).symm
      _ ≤ 2 ^ 15 := Nat.pow_le_pow_right Nat.two_pos h
  rw [BitVec.toNat_shiftLeft, BitVec.toNat_setWidth, Nat.mod_eq_of_lt hn, Nat.mod_eq_of_lt hs]

/-- Step 1 of R101 multiplies the polynomials. -/
theorem toPoly_carrylessProduct (a b : Byte) :
    toPoly (carrylessProduct a b).toNat = toPoly a.toNat * toPoly b.toNat := by
  have rounds (n : ℕ) (hn : n ≤ 8) :
      toPoly ((List.range n).foldl (fun p i => if b.getLsbD i then p ^^^ (a.setWidth 15 <<< i) else p) 0).toNat =
        toPoly a.toNat * ∑ i ∈ Finset.range n, if b.toNat.testBit i then X ^ i else 0 := by
    induction n with
    | zero => simp
    | succ n ih =>
      rw [List.range_succ, List.foldl_append, Finset.sum_range_succ, mul_add, ← ih (by omega)]
      cases hb : b.toNat.testBit n <;>
        simp [← BitVec.testBit_toNat, hb, toPoly_xor, toNat_setWidth_shiftLeft a (i := n) (by omega), toPoly_shiftLeft]
  rw [carrylessProduct, rounds 8 le_rfl, ← toPoly_eq_sum b.isLt]

/-- One round of step 2 of R101 is a round of the division by `POLY`. -/
theorem toNat_reduceBit (poly : BitVec 9) (v : BitVec 15) {i : ℕ} (h : 8 ≤ i ∧ i ≤ 14) :
    (reduceBit poly v i).toNat = divideBit poly.toNat 8 v.toNat i := by
  cases hb : v.toNat.testBit i <;>
    simp [reduceBit, divideBit, ← BitVec.testBit_toNat, hb, h.1, toNat_setWidth_shiftLeft poly (i := i - 8) (by omega)]

theorem leadingBit_polyBits (p : ReductionPoly) : LeadingBit (polyBits p).toNat 8 :=
  ⟨Nat.ge_two_pow_of_testBit (by rw [BitVec.testBit_toNat]; exact polyBits_bit_eight p), (polyBits p).isLt⟩

theorem toNat_reduceProduct (poly : BitVec 9) (v : BitVec 15) :
    (reduceProduct poly v).toNat = [14, 13, 12, 11, 10, 9, 8].foldl (divideBit poly.toNat 8) v.toNat := by
  simp [reduceProduct, toNat_reduceBit]

/-- `gf_mul` (R101) is the polynomial product modulo `POLY`. -/
theorem toPoly_gfMul (p : ReductionPoly) (a b : Byte) :
    toPoly (gfMul p a b).toNat = (toPoly a.toNat * toPoly b.toNat) % toPoly (polyBits p).toNat := by
  have hp := leadingBit_polyBits p
  have h8 : (reduceProduct (polyBits p) (carrylessProduct a b)).toNat < 2 ^ 8 := by
    rw [toNat_reduceProduct]
    exact foldl_divideBit_lt (m := 8) (n := 7) hp (carrylessProduct a b).isLt
  rw [gfMul, BitVec.toNat_setWidth, Nat.mod_eq_of_lt h8, ← toPoly_carrylessProduct]
  exact toPoly_eq_mod hp h8 (by rw [toNat_reduceProduct, toPoly_foldl_divideBit_mod])

/-- Each admissible `POLY` (R7) is irreducible, since trial division by every polynomial of degree 1 to 4 leaves a
remainder. -/
theorem irreducible_polyBits (p : ReductionPoly) : Irreducible (toPoly (polyBits p).toNat) := by
  have hp := leadingBit_polyBits p
  have hdeg : (toPoly (polyBits p).toNat).natDegree = 8 := natDegree_eq_of_degree_eq_some (degree_toPoly hp)
  refine (irreducible_iff_lt_natDegree_lt hp.toPoly_ne_zero fun hu => ?_).2 fun q hq hdq hdvd => ?_
  · rw [natDegree_eq_zero_of_isUnit hu] at hdeg
    cases hdeg
  · obtain ⟨d, hd, rfl⟩ := exists_toPoly_eq hq.ne_zero
    rw [hdeg, Finset.mem_Ioc] at hdq
    generalize (toPoly d).natDegree = top at hd hdq
    have hd5 : d < 2 ^ 5 := hd.2.trans_le (Nat.pow_le_pow_right Nat.two_pos (by omega))
    refine remainder_polyBits_ne_zero p top (by simp; omega) d (List.mem_range.2 hd5) hd.1 hd.2 ?_
    rw [← toPoly_eq_zero_iff, toPoly_remainder (polyBits p).isLt hd (by omega)]
    exact EuclideanDomain.mod_eq_zero.2 hdvd

theorem toPoly_byte_eq_zero_iff (a : Byte) : toPoly a.toNat = 0 ↔ a = 0x00#8 := by
  rw [toPoly_eq_zero_iff, ← BitVec.toNat_inj]
  rfl

/-- The field has no zero divisors. -/
theorem gfMul_eq_zero_iff (p : ReductionPoly) (a b : Byte) : gfMul p a b = 0x00#8 ↔ a = 0x00#8 ∨ b = 0x00#8 := by
  have hp := leadingBit_polyBits p
  have hbyte (c : Byte) : toPoly (polyBits p).toNat ∣ toPoly c.toNat ↔ c = 0x00#8 := by
    rw [← toPoly_byte_eq_zero_iff]
    refine ⟨fun h => eq_zero_of_dvd_of_degree_lt h ?_, fun h => h ▸ dvd_zero _⟩
    rw [degree_toPoly hp]
    exact degree_toPoly_lt c.isLt
  rw [← toPoly_byte_eq_zero_iff, toPoly_gfMul, EuclideanDomain.mod_eq_zero, (irreducible_polyBits p).prime.dvd_mul,
    hbyte, hbyte]

theorem gfMul_xor (p : ReductionPoly) (a b c : Byte) : gfMul p a (b ^^^ c) = gfMul p a b ^^^ gfMul p a c := by
  refine BitVec.eq_of_toNat_eq (toPoly_injective ?_)
  simp only [toPoly_gfMul, BitVec.toNat_xor, toPoly_xor, mul_add, add_mod]

theorem gfMul_left_injective (p : ReductionPoly) {a : Byte} (ha : a ≠ 0x00#8) : Function.Injective (gfMul p a) :=
  fun b c h => by
    have h0 : gfMul p a (b ^^^ c) = 0x00#8 := by rw [gfMul_xor, h, BitVec.xor_self]
    exact BitVec.xor_eq_zero_iff.1 (((gfMul_eq_zero_iff p a _).1 h0).resolve_left ha)

theorem mem_allBytes (b : Byte) : b ∈ allBytes :=
  List.mem_map.2 ⟨b.toNat, List.mem_range.2 b.isLt, byteOf_toNat b⟩

/-- `gf_inv` has a value at every byte but `0x00` (R102): multiplication by the byte is injective, so it reaches `0x01`. -/
theorem gfInv_isSome (p : ReductionPoly) {a : Byte} (ha : a ≠ 0x00#8) : (gfInv p a).isSome := by
  obtain ⟨b, hb⟩ := Finite.surjective_of_injective (gfMul_left_injective p ha) 0x01#8
  exact List.find?_isSome.2 ⟨b, mem_allBytes b, by simp [hb]⟩

end Sys2Proof.Machine
end

section
/-! Where the Lagrange engine has a value (42_lagrange.md R140, R143): exactly under its precondition. -/

namespace Sys2Proof.Machine

theorem foldl_gfMul_ne_zero (p : ReductionPoly) {α : Type} (f : α → Byte) (l : List α) (hl : ∀ x ∈ l, f x ≠ 0x00#8)
    {acc : Byte} (hacc : acc ≠ 0x00#8) : l.foldl (fun acc x => gfMul p acc (f x)) acc ≠ 0x00#8 := by
  induction l generalizing acc with
  | nil => exact hacc
  | cons x l ih =>
    obtain ⟨hx, hl⟩ := List.forall_mem_cons.1 hl
    exact ih hl fun h => ((gfMul_eq_zero_iff p acc _).1 h).elim hacc hx

/-- The denominator of R141 is not zero when no fellow point has the same x-coordinate, so the weight exists. -/
theorem weight_isSome (p : ReductionPoly) {xj : Byte} {others : List Byte} (h : xj ∉ others) :
    (weight p xj others).isSome := by
  have hden : weightDen p xj others ≠ 0x00#8 :=
    foldl_gfMul_ne_zero p (gfAdd · xj) others (fun xi hxi h0 => h (BitVec.xor_eq_zero_iff.1 h0 ▸ hxi)) (by decide)
  rw [weight, Option.isSome_map]
  exact gfInv_isSome p hden

theorem isSome_mapM {α β : Type} (f : α → Option β) (l : List α) (h : ∀ x ∈ l, (f x).isSome) : (l.mapM f).isSome := by
  induction l with
  | nil => rfl
  | cons x l ih =>
    obtain ⟨hx, hl⟩ := List.forall_mem_cons.1 h
    obtain ⟨y, hy⟩ := Option.isSome_iff_exists.1 hx
    obtain ⟨ys, hys⟩ := Option.isSome_iff_exists.1 (ih hl)
    simp [List.mapM_cons, hy, hys]

theorem not_mem_eraseIdx_of_nodup {α : Type} {l : List α} (h : l.Nodup) {x : α} {j : ℕ} (hx : (x, j) ∈ l.zipIdx) :
    x ∉ l.eraseIdx j := by
  obtain ⟨hj, hxj⟩ := List.mem_zipIdx' hx
  intro hmem
  obtain ⟨i, hi, hne, heq⟩ := List.mem_eraseIdx_iff_getElem.1 hmem
  exact hne (h.getElem_inj_iff.1 (heq.trans hxj))

theorem weights_isSome (p : ReductionPoly) {xs : List Byte} (h : xs.Nodup) : (weights p xs).isSome :=
  isSome_mapM _ _ fun _ hx => weight_isSome p (not_mem_eraseIdx_of_nodup h hx)

theorem lagrange0_eq_none_iff (p : ReductionPoly) (points : List (Byte × Byte)) :
    lagrange0 p points = none ↔ ¬ Interpolable (points.map Prod.fst) := by
  unfold lagrange0
  split
  · next h => simp [h, Option.isSome_iff_ne_none.1 (weights_isSome p h.2.2)]
  · next h => simp [h]

theorem combine_eq_none_iff (p : ReductionPoly) (shares : List Frame) :
    combine p shares = none ↔ ¬ Interpolable (shares.map shareX) := by
  unfold combine
  split
  · next h => simp [h, Option.isSome_iff_ne_none.1 (weights_isSome p h.2.2)]
  · next h => simp [h]

theorem eq_and_iff_ite_eq {P : Prop} [Decidable P] {m n : ℕ} (hm : m ≠ 0) :
    n = m ∧ P ↔ n ≠ 0 ∧ (if P then m else 0) = n := by
  split
  · next hP =>
    rw [and_iff_left hP]
    omega
  · next hP => exact ⟨fun h => absurd h.2 hP, fun h => absurd h.2.symm h.1⟩

/-- The engine fails on a command exactly where the command needs draws, and on as many (R143). -/
theorem engineFails_iff (p : ReductionPoly) (i : Instr) (n : ℕ) : EngineFails p i n ↔ n ≠ 0 ∧ drawsNeeded i = n := by
  cases i with
  | lagr0 points =>
    rw [drawsNeeded, ← ite_not, ← eq_and_iff_ite_eq Nat.one_ne_zero, not_or, ← lagrange0_eq_none_iff p,
      ← List.length_eq_zero_iff]
    rfl
  | kcomb recs =>
    rw [drawsNeeded, ← eq_and_iff_ite_eq (by decide), ← combine_eq_none_iff p]
    rfl
  | fcomb recs =>
    rw [drawsNeeded, ← eq_and_iff_ite_eq (by decide), ← combine_eq_none_iff p]
    rfl
  | _ => exact ⟨False.elim, fun ⟨hn, h⟩ => hn h.symm⟩

end Sys2Proof.Machine
end

section
/-! What one command leaves unchanged, and what its response is a function of (10_state.md R20, R25; 20_memory.md R44, R51). -/

namespace Sys2Proof.Machine

theorem exec_of_engineFails {i : Instr} {s : State} {n : ℕ} (h : EngineFails s.config.poly i n) :
    ∃ tail, exec i s = retDrawn n tail s := by
  cases i with
  | lagr0 points =>
    obtain ⟨rfl, hne, hl⟩ := h
    exact ⟨[], by simp only [exec, execLagr0, hne, hl, if_false]⟩
  | kcomb recs =>
    obtain ⟨rfl, hv, hc⟩ := h
    exact ⟨[], by simp only [exec, execKcomb, hv, combineCommand, hc]⟩
  | fcomb recs =>
    obtain ⟨rfl, hv, hc⟩ := h
    exact ⟨commonEnvelope recs, by simp only [exec, execFcomb, hv, combineCommand, hc]⟩
  | _ => exact h.elim

/-- A command goes on by exactly the draws it needs (R143). -/
theorem exec_draws {i : Instr} {s t : State} (h : exec i s = .next t) : t.draws = s.draws + drawsNeeded i := by
  by_cases h0 : drawsNeeded i = 0
  · have hd := exec_does i s
    rw [h] at hd
    cases hd with
    | draws n body hf =>
      obtain ⟨hn, rfl⟩ := (engineFails_iff _ i n).1 hf
      exact absurd h0 hn
    | _ => simp [h0]
  · obtain ⟨tail, hr⟩ := exec_of_engineFails ((engineFails_iff s.config.poly i _).2 ⟨h0, rfl⟩)
    rw [hr, retDrawn_eq] at h
    cases h
    simp

/-- Settles O44: each case of `exec_does` touches the phase and `RSP`, and `RNG` only for a split that asks. -/
theorem commandsChangeNothingElse : Obligations.CommandsChangeNothingElse := by
  intro i s t h
  have hdraws := exec_draws h
  have hd := exec_does i s
  rw [h] at hd
  cases hd with
  | answers r _ => exact ⟨rfl, rfl, hdraws, fun _ => rfl, .inl ⟨rfl, r, rfl⟩⟩
  | draws n body _ => exact ⟨rfl, rfl, hdraws, fun _ => rfl, .inl ⟨rfl, _, rfl⟩⟩
  | splits body r rest ha => exact ⟨rfl, rfl, hdraws, fun h0 => absurd h0 ha, .inl ⟨rfl, _, rfl⟩⟩
  | randomFails rest ha => exact ⟨rfl, rfl, hdraws, fun h0 => absurd h0 ha, .inl ⟨rfl, _, rfl⟩⟩
  | waits ha => exact ⟨rfl, rfl, hdraws, fun _ => rfl, .inr ⟨ha, rfl⟩⟩

/-- Two outcomes, one from `s` and one from `s'`, that deliver the same response, or both none. -/
inductive SameResponse (s s' : State) : Outcome → Outcome → Prop where
  | responds (r : Frame) {t t' : State} (ht : t.rsp = s.rsp) (ht' : t'.rsp = s'.rsp) :
      SameResponse s s' (.next (answered r t)) (.next (answered r t'))
  | waits : SameResponse s s' (wait s) (wait s')

theorem SameResponse.rsp_drop_eq {s s' t t' : State} (h : SameResponse s s' (.next t) (.next t')) :
    t.rsp.drop s.rsp.length = t'.rsp.drop s'.rsp.length := by
  cases h with
  | responds r ht ht' => simp [ht, ht']
  | waits => simp

theorem sameResponse_ret (body : Frame) {s s' t t' : State} (ht : t.rsp = s.rsp) (ht' : t'.rsp = s'.rsp) :
    SameResponse s s' (ret body t) (ret body t') := by
  rw [ret_eq, ret_eq]
  exact .responds _ ht ht'

theorem sameResponse_raise (e : Error) {s s' t t' : State} (ht : t.rsp = s.rsp) (ht' : t'.rsp = s'.rsp) :
    SameResponse s s' (raise e t) (raise e t') := by
  rw [raise_eq, raise_eq]
  exact .responds _ ht ht'

theorem sameResponse_retDrawn (n : ℕ) (tail : Frame) {s s' : State} (h : s.draws = s'.draws) :
    SameResponse s s' (retDrawn n tail s) (retDrawn n tail s') := by
  have hbytes : drawnBytes n s = drawnBytes n s' := by simp only [drawnBytes, h]
  rw [retDrawn_eq, retDrawn_eq, hbytes]
  exact .responds _ rfl rfl

/-- One request on two ports whose next answers are the same comes to the same (R43). -/
theorem rngRead_of_head?_eq (n : ℕ) {s s' : State} (h : s.rng.head? = s'.rng.head?) :
    (∃ rest rest', rngRead n s = .failed (afterAnswer rest s) ∧ rngRead n s' = .failed (afterAnswer rest' s')) ∨
    (∃ r rest rest', rngRead n s = .answered r (afterAnswer rest s) ∧
      rngRead n s' = .answered r (afterAnswer rest' s')) ∨
    (rngRead n s = .unanswered ∧ rngRead n s' = .unanswered) := by
  match hs : s.rng, hs' : s'.rng with
  | [], [] => exact .inr (.inr (by simp only [rngRead, hs, hs', and_self]))
  | [], _ :: _ => simp [hs, hs'] at h
  | _ :: _, [] => simp [hs, hs'] at h
  | a :: rest, a' :: rest' =>
    obtain rfl : a = a' := by simpa [hs, hs'] using h
    cases a with
    | fail => exact .inl ⟨rest, rest', rngRead_fail hs, rngRead_fail hs'⟩
    | bytes r =>
      by_cases hr : r.length = n
      · exact .inr (.inl ⟨r, rest, rest', rngRead_bytes hs hr, rngRead_bytes hs' hr⟩)
      · exact .inr (.inr (by simp only [rngRead, hs, hs', hr, if_false, and_self]))

theorem validateSplit_threshold_pos {n k : U16} (h : validateSplit n k = none) : 1 ≤ k.toNat := by
  unfold validateSplit at h
  split at h
  · cases h
  · split at h
    · cases h
    · omega

theorem sameResponse_splitCommand {n k : U16} {secret : Frame} {frame : Frame → Frame} {s s' : State}
    (hc : s.config = s'.config)
    (hr : (if validateSplit n k = none then 32 * (k.toNat - 1) else 0) ≠ 0 → s.rng.head? = s'.rng.head?) :
    SameResponse s s' (splitCommand n k secret frame s) (splitCommand n k secret frame s') := by
  unfold splitCommand
  cases hv : validateSplit n k with
  | some e => exact sameResponse_raise e rfl rfl
  | none =>
    by_cases hk : k.toNat = 1
    · simp only [splitRandom, hk, if_true, hc]
      exact sameResponse_ret _ rfl rfl
    · have hk1 := validateSplit_threshold_pos hv
      have hhead := hr (by simp only [hv, if_true]; omega)
      simp only [splitRandom, hk, if_false, hc]
      obtain ⟨rest, rest', h, h'⟩ | ⟨r, rest, rest', h, h'⟩ | ⟨h, h'⟩ :=
        rngRead_of_head?_eq (Config.L * (k.toNat - 1)) hhead
      · rw [h, h']
        exact sameResponse_raise _ rfl rfl
      · rw [h, h']
        exact sameResponse_ret _ rfl rfl
      · rw [h, h']
        exact .waits

theorem sameResponse_combineCommand {shares : List Frame} (tail : Frame) {s s' : State} (hc : s.config = s'.config)
    (hd : combine s.config.poly shares = none → s.draws = s'.draws) :
    SameResponse s s' (combineCommand shares tail s) (combineCommand shares tail s') := by
  unfold combineCommand
  rw [← hc]
  cases h : combine s.config.poly shares with
  | some key => exact sameResponse_ret _ rfl rfl
  | none => exact sameResponse_retDrawn _ _ (hd h)

/-- A response is a function of the command, the constants, the next random answer and the draw number (R20). -/
theorem exec_sameResponse (i : Instr) {s s' : State} (hc : s.config = s'.config)
    (hr : AsksRandom i → s.rng.head? = s'.rng.head?) (hd : drawsNeeded i ≠ 0 → s.draws = s'.draws) :
    SameResponse s s' (exec i s) (exec i s') := by
  have hfail {n : ℕ} (h : EngineFails s.config.poly i n) : s.draws = s'.draws := by
    obtain ⟨hn, rfl⟩ := (engineFails_iff _ i n).1 h
    exact hd hn
  cases i with
  | gfadd a b => exact sameResponse_ret _ rfl rfl
  | gfmul a b =>
    simp only [exec, execGfmul, hc]
    exact sameResponse_ret _ rfl rfl
  | gfinv a =>
    simp only [exec, execGfinv, hc]
    cases gfInv s'.config.poly a with
    | none => exact sameResponse_raise _ rfl rfl
    | some r => exact sameResponse_ret _ rfl rfl
  | peval x c =>
    simp only [exec, execPeval, hc]
    split
    · exact sameResponse_raise _ rfl rfl
    · exact sameResponse_ret _ rfl rfl
  | ksplit n k secret => exact sameResponse_splitCommand hc hr
  | lagr0 points =>
    simp only [exec, execLagr0, ← hc]
    split
    · exact sameResponse_raise _ rfl rfl
    · next hp =>
      cases hl : lagrange0 s.config.poly points with
      | none => exact sameResponse_retDrawn _ _ (hfail ⟨rfl, hp, hl⟩)
      | some r => exact sameResponse_ret _ rfl rfl
  | kcomb recs =>
    simp only [exec, execKcomb]
    cases hv : validateCombine recs Config.KS_LEN with
    | some e => exact sameResponse_raise _ rfl rfl
    | none => exact sameResponse_combineCommand _ hc fun h => hfail ⟨rfl, hv, h⟩
  | valsplit n k =>
    simp only [exec, execValsplit]
    cases validateSplit n k with
    | some e => exact sameResponse_raise _ rfl rfl
    | none => exact sameResponse_ret _ rfl rfl
  | valcomb kind recs =>
    simp only [exec, execValcomb]
    cases validateCombine recs (expectedLength kind) with
    | some e => exact sameResponse_raise _ rfl rfl
    | none => exact sameResponse_ret _ rfl rfl
  | dedup recs => exact sameResponse_ret _ rfl rfl
  | kframe index payload =>
    simp only [exec, execKframe]
    split
    · exact sameResponse_raise _ rfl rfl
    · exact sameResponse_ret _ rfl rfl
  | kunframe share =>
    simp only [exec, execKunframe]
    split
    · exact sameResponse_ret _ rfl rfl
    · exact sameResponse_raise _ rfl rfl
  | fframe env keyShares =>
    simp only [exec, execFframe]
    split
    · exact sameResponse_raise _ rfl rfl
    · exact sameResponse_ret _ rfl rfl
  | funframe recs =>
    simp only [exec, execFunframe]
    cases validateFull recs with
    | some e => exact sameResponse_raise _ rfl rfl
    | none => exact sameResponse_ret _ rfl rfl
  | fsplit n k key env => exact sameResponse_splitCommand hc hr
  | fcomb recs =>
    simp only [exec, execFcomb]
    cases hv : validateFull recs with
    | some e => exact sameResponse_raise _ rfl rfl
    | none => exact sameResponse_combineCommand _ hc fun h => hfail ⟨rfl, hv, h⟩

/-- Settles O46, by the case analysis of `exec_sameResponse`. -/
theorem responseDependsOnNothingElse : Obligations.ResponseDependsOnNothingElse := by
  intro i s s' t t' ht ht' hc hr hd
  have same := exec_sameResponse i hc hr hd
  rw [ht, ht'] at same
  exact same.rsp_drop_eq

end Sys2Proof.Machine
end

section
/-! Runs of any length (20_memory.md R50): what every step keeps holds along every run, and an idle unit answers its
self-contained frames one by one, each as it would alone. -/

namespace Sys2Proof.Machine

theorem run_succ_of_step {s t : State} (k : ℕ) (h : step s = .next t) :
    Host.Core.run Sys2Proof.core (k + 1) s = Host.Core.run Sys2Proof.core k t := by
  simp only [Host.Core.run, show Sys2Proof.core.step s = .next t from h]

theorem exec_total (i : Instr) (s : State) : ∃ t, exec i s = .next t := by
  have hd := exec_does i s
  generalize exec i s = o at hd ⊢
  cases hd <;> exact ⟨_, rfl⟩

theorem rejectFrame_response (e : DecodeError) : ∃ r, ∀ s, rejectFrame e s = .next (answered r s) := by
  cases e with
  | illegalOpcode => exact ⟨_, raise_eq .illegalOpcode⟩
  | badFrame => exact ⟨_, raise_eq .badFrame⟩

theorem step_total (s : State) : ∃ t, step s = .next t := by
  obtain ⟨-, h⟩ | ⟨f, t, i, -, -, h⟩ | ⟨f, t, e, -, -, h⟩ := step_cases s
  · exact ⟨s, h⟩
  · rw [h]
    exact exec_total i t
  · obtain ⟨r, he⟩ := rejectFrame_response e
    exact ⟨_, h.trans (he t)⟩

/-- A reflexive and transitive relation that every step keeps holds between the ends of every run. -/
theorem run_induction {R : State → State → Prop} (refl : ∀ s, R s s) (trans : ∀ {s t u}, R s t → R t u → R s u)
    (hstep : ∀ {s t}, step s = .next t → R s t) (k : ℕ) {s u : State}
    (h : Host.Core.run Sys2Proof.core k s = .next u) : R s u := by
  induction k generalizing s with
  | zero =>
    cases h
    exact refl _
  | succ k ih =>
    obtain ⟨t, ht⟩ := step_total s
    rw [run_succ_of_step k ht] at h
    exact trans (hstep ht) (ih h)

/-- What a run keeps of the ports, the constants and the counters (R25, R50). -/
structure PortsInOrder (s t : State) : Prop where
  rsp : s.rsp <+: t.rsp
  cmd : t.cmd <:+ s.cmd
  rng : t.rng <:+ s.rng
  config : t.config = s.config
  draws : s.draws ≤ t.draws
  frames : t.cmd.length + inFlight t + t.rsp.length = s.cmd.length + inFlight s + s.rsp.length

theorem PortsInOrder.refl (s : State) : PortsInOrder s s :=
  ⟨List.prefix_rfl, List.suffix_rfl, List.suffix_rfl, rfl, le_rfl, rfl⟩

theorem PortsInOrder.trans {s t u : State} (h : PortsInOrder s t) (h' : PortsInOrder t u) : PortsInOrder s u :=
  ⟨h.rsp.trans h'.rsp, h'.cmd.trans h.cmd, h'.rng.trans h.rng, h'.config.trans h.config, h.draws.trans h'.draws,
    h'.frames.trans h.frames⟩

theorem inFlight_busy {s : State} {f : Frame} (h : s.phase = .busy f) : inFlight s = 1 := by simp [inFlight, h]

theorem inFlight_idle {s : State} (h : s.phase = .idle) : inFlight s = 0 := by simp [inFlight, h]

/-- A busy unit that delivers one response is idle: the frame in flight has become the response. -/
theorem portsInOrder_answered {s t : State} {f : Frame} (hp : s.phase = .busy f) (r : Frame) (hrsp : t.rsp = s.rsp)
    (hcmd : t.cmd = s.cmd) (hrng : t.rng <:+ s.rng) (hconfig : t.config = s.config) (hdraws : s.draws ≤ t.draws) :
    PortsInOrder s (answered r t) where
  rsp := by simp [hrsp]
  cmd := by simp [hcmd]
  rng := hrng
  config := hconfig
  draws := hdraws
  frames := by
    rw [inFlight_busy hp, inFlight_idle (answered_phase r t)]
    simp [hrsp, hcmd]
    omega

theorem fetch_portsInOrder {s t : State} {f : Frame} (h : fetch s = some (f, t)) : PortsInOrder s t := by
  obtain ⟨g, hp, hg⟩ | ⟨-, -, hg⟩ | ⟨g, rest, hp, hc, hg⟩ := fetch_cases s
  · rw [hg] at h
    cases h
    exact .refl s
  · rw [hg] at h
    cases h
  · rw [hg] at h
    cases h
    refine ⟨List.prefix_rfl, by simp [hc], List.suffix_rfl, rfl, le_rfl, ?_⟩
    rw [inFlight_idle hp, hc]
    simp [inFlight]

theorem exec_portsInOrder {i : Instr} {s t : State} {f : Frame} (hp : s.phase = .busy f) (h : exec i s = .next t) :
    PortsInOrder s t := by
  have hd := exec_does i s
  rw [h] at hd
  cases hd with
  | answers r _ => exact portsInOrder_answered hp r rfl rfl List.suffix_rfl rfl le_rfl
  | draws n body _ => exact portsInOrder_answered hp _ rfl rfl List.suffix_rfl rfl (Nat.le_add_right _ n)
  | splits body r rest _ hs => exact portsInOrder_answered hp _ rfl rfl (hs ▸ List.suffix_cons _ rest) rfl le_rfl
  | randomFails rest _ hs => exact portsInOrder_answered hp _ rfl rfl (hs ▸ List.suffix_cons _ rest) rfl le_rfl
  | waits _ => exact .refl s

theorem step_portsInOrder {s u : State} (h : step s = .next u) : PortsInOrder s u := by
  obtain ⟨-, hs⟩ | ⟨f, t, i, hf, -, hs⟩ | ⟨f, t, e, hf, -, hs⟩ := step_cases s
  · rw [hs] at h
    cases h
    exact .refl s
  · exact (fetch_portsInOrder hf).trans (exec_portsInOrder (fetch_frame hf).1 (hs ▸ h))
  · refine (fetch_portsInOrder hf).trans ?_
    obtain ⟨r, he⟩ := rejectFrame_response e
    rw [hs, he] at h
    cases h
    exact portsInOrder_answered (fetch_frame hf).1 r rfl rfl List.suffix_rfl rfl le_rfl

/-- Settles O56: every step keeps `PortsInOrder`, so every run does. -/
theorem everyRunKeepsThePortsInOrder : Obligations.EveryRunKeepsThePortsInOrder := by
  intro k s t h
  obtain ⟨hrsp, hcmd, hrng, hconfig, hdraws, hframes⟩ :=
    run_induction PortsInOrder.refl PortsInOrder.trans step_portsInOrder k h
  exact ⟨hrsp, hcmd, hrng, hconfig, hdraws, hframes⟩

/-- A command that needs neither a random answer nor a draw only delivers its response. -/
theorem exec_selfContained {i : Instr} (hr : randomNeed i = 0) (hd : drawsNeeded i = 0) (s : State) :
    ∃ r, exec i s = .next (answered r s) := by
  have does := exec_does i s
  generalize exec i s = o at does ⊢
  cases does with
  | answers r _ => exact ⟨r, rfl⟩
  | draws n body hf =>
    obtain ⟨hn, rfl⟩ := (engineFails_iff _ i n).1 hf
    exact absurd hd hn
  | splits body r rest ha => exact absurd hr ha
  | randomFails rest ha => exact absurd hr ha
  | waits ha => exact absurd hr ha

/-- Equally built units give a self-contained command the same response. -/
theorem exec_selfContained_response {i : Instr} (hr : randomNeed i = 0) (hd : drawsNeeded i = 0) (c : Config) :
    ∃ r, ∀ s : State, s.config = c → exec i s = .next (answered r s) := by
  obtain ⟨r, h⟩ := exec_selfContained hr hd { State.reset with config := c }
  refine ⟨r, fun s hs => ?_⟩
  obtain ⟨r', h'⟩ := exec_selfContained hr hd s
  have same := responseDependsOnNothingElse i s _ _ _ h' h hs (absurd hr) (absurd hd)
  obtain rfl : r' = r := by simpa using same
  exact h'

theorem fetch_waiting {s : State} {f : Frame} {rest : List Frame} (hp : s.phase = .idle) (hc : s.cmd = f :: rest) :
    fetch s = some (f, { s with phase := .busy f, cmd := rest }) := by
  simp [fetch, hp, hc]

theorem answered_taken {s : State} {f : Frame} {rest : List Frame} (r : Frame) (hp : s.phase = .idle) :
    answered r { s with phase := .busy f, cmd := rest } = { s with cmd := rest, rsp := s.rsp ++ [r] } := by
  simp [answered, hp]

/-- Equally built units answer a self-contained frame, well-formed or not, with the same response. -/
theorem step_selfContained_response {f : Frame} (hf : SelfContained f) (c : Config) :
    ∃ r, ∀ (s : State) (rest : List Frame), s.phase = .idle → s.cmd = f :: rest → s.config = c →
      step s = .next { s with cmd := rest, rsp := s.rsp ++ [r] } := by
  cases hd : decode f with
  | ok i =>
    obtain ⟨hr, hn⟩ := hf i hd
    obtain ⟨r, h⟩ := exec_selfContained_response hr hn c
    refine ⟨r, fun s rest hp hc hs => ?_⟩
    simp only [step, fetch_waiting hp hc, hd]
    exact (h { s with phase := .busy f, cmd := rest } hs).trans (congrArg _ (answered_taken r hp))
  | error e =>
    obtain ⟨r, h⟩ := rejectFrame_response e
    refine ⟨r, fun s rest hp hc _ => ?_⟩
    simp only [step, fetch_waiting hp hc, hd]
    rw [h, answered_taken r hp]

theorem step_selfContained {f : Frame} (hf : SelfContained f) {s : State} {rest : List Frame} (hp : s.phase = .idle)
    (hc : s.cmd = f :: rest) :
    step s = .next { s with cmd := rest, rsp := s.rsp ++ [soloResponse s.config f] } := by
  obtain ⟨r, h⟩ := step_selfContained_response hf s.config
  have solo : soloResponse s.config f = r := by
    simp only [soloResponse, h { State.reset with config := s.config, cmd := [f] } [] rfl rfl rfl]
    rfl
  rw [solo, h s rest hp hc rfl]

/-- Settles O57, by induction on the waiting frames: each step answers the oldest one and leaves an idle unit, built as
before, with the others. -/
theorem commandsDoNotSeeEachOther : Obligations.CommandsDoNotSeeEachOther := by
  intro s hp hcmd
  generalize hfs : s.cmd = fs at hcmd ⊢
  induction fs generalizing s with
  | nil =>
    cases s
    cases hfs
    exact congrArg (Host.Outcome.next (σ := State)) (by simp)
  | cons f rest ih =>
    obtain ⟨hf, hrest⟩ := List.forall_mem_cons.1 hcmd
    rw [List.length_cons, run_succ_of_step _ (step_selfContained hf hp hfs)]
    refine (ih { s with cmd := rest, rsp := s.rsp ++ [soloResponse s.config f] } hp rfl hrest).trans
      (congrArg (Host.Outcome.next (σ := State)) ?_)
    simp

end Sys2Proof.Machine
end

section
/-! What one command does to the whole state (20_memory.md R43, R44, R51): with its random answer there it consumes what it
needs and delivers one legal response; without, it leaves the state as it is. -/

namespace Sys2Proof.Machine

theorem validateSplit_eq_none_iff (n k : U16) : validateSplit n k = none ↔ ValidParams n.toNat k.toNat := by
  unfold validateSplit ValidParams Config.N_MAX
  split
  · next h => exact iff_of_false (by simp) (by omega)
  · split
    · next h => exact iff_of_false (by simp) (by omega)
    · exact iff_of_true rfl (by omega)

/-- The commands that split, with their parameters (R124, R185). -/
def IsSplit (i : Instr) (n k : U16) : Prop :=
  (∃ secret, i = .ksplit n k secret) ∨ ∃ key env, i = .fsplit n k key env

theorem isSplit_ksplit (n k : U16) (secret : Frame) : IsSplit (.ksplit n k secret) n k := .inl ⟨secret, rfl⟩

theorem isSplit_fsplit (n k : U16) (key env : Frame) : IsSplit (.fsplit n k key env) n k := .inr ⟨key, env, rfl⟩

theorem IsSplit.exec_eq {i : Instr} {n k : U16} (hi : IsSplit i n k) :
    ∃ secret frame, ∀ s, exec i s = splitCommand n k secret frame s := by
  obtain ⟨secret, rfl⟩ | ⟨key, env, rfl⟩ := hi
  · exact ⟨secret, id, fun _ => rfl⟩
  · exact ⟨key, frameFull env, fun _ => rfl⟩

theorem IsSplit.randomNeed_eq {i : Instr} {n k : U16} (hi : IsSplit i n k) (hv : ValidParams n.toNat k.toNat) :
    randomNeed i = 32 * (k.toNat - 1) := by
  rw [← validateSplit_eq_none_iff] at hv
  obtain ⟨secret, rfl⟩ | ⟨key, env, rfl⟩ := hi <;> exact if_pos hv

theorem IsSplit.drawsNeeded_eq {i : Instr} {n k : U16} (hi : IsSplit i n k) : drawsNeeded i = 0 := by
  obtain ⟨secret, rfl⟩ | ⟨key, env, rfl⟩ := hi <;> rfl

/-- Only a split whose parameters are valid and whose threshold is 2 or more asks the random port (R44). -/
theorem exists_isSplit_of_asksRandom {i : Instr} (ha : AsksRandom i) :
    ∃ n k, IsSplit i n k ∧ ValidParams n.toNat k.toNat ∧ 2 ≤ k.toNat := by
  have valid {n k : U16} (h : (if validateSplit n k = none then 32 * (k.toNat - 1) else 0) ≠ 0) :
      ValidParams n.toNat k.toNat ∧ 2 ≤ k.toNat := by
    obtain ⟨hv, hk⟩ := ite_ne_right_iff.1 h
    exact ⟨(validateSplit_eq_none_iff n k).1 hv, by omega⟩
  cases i with
  | ksplit n k secret => exact ⟨n, k, isSplit_ksplit n k secret, valid ha⟩
  | fsplit n k key env => exact ⟨n, k, isSplit_fsplit n k key env, valid ha⟩
  | _ => exact absurd rfl ha

section
variable {i : Instr} {n k : U16} (hi : IsSplit i n k) (hv : ValidParams n.toNat k.toNat)
include hi hv

/-- A split with `k = 1` answers without a request (R44). -/
theorem IsSplit.exec_threshold_one (hk : k.toNat = 1) (s : State) :
    ∃ body, exec i s = .next (answered (0x00#8 :: body) s) := by
  obtain ⟨secret, frame, he⟩ := hi.exec_eq
  simp only [he, splitCommand, (validateSplit_eq_none_iff n k).2 hv, splitRandom, hk, if_true, ret_eq]
  exact ⟨_, rfl⟩

/-- A split with `k >= 2` whose request gets its bytes takes them and answers OK (R43, R44). -/
theorem IsSplit.exec_bytes (hk : 2 ≤ k.toNat) {s : State} {r : Frame} {rest : List RngAnswer}
    (hs : s.rng = .bytes r :: rest) (hr : r.length = 32 * (k.toNat - 1)) :
    ∃ body, exec i s = .next (answered (0x00#8 :: body) (afterAnswer rest s)) := by
  obtain ⟨secret, frame, he⟩ := hi.exec_eq
  have hk1 : k.toNat ≠ 1 := by omega
  simp only [he, splitCommand, (validateSplit_eq_none_iff n k).2 hv, splitRandom, hk1, if_false, rngRead_bytes hs hr,
    ret_eq]
  exact ⟨_, rfl⟩

/-- A split with `k >= 2` whose request fails takes the `Fail` and answers RandomSourceFailure (R43, R202). -/
theorem IsSplit.exec_fail (hk : 2 ≤ k.toNat) {s : State} {rest : List RngAnswer} (hs : s.rng = .fail :: rest) :
    exec i s = .next (answered [0x06#8] (afterAnswer rest s)) := by
  obtain ⟨secret, frame, he⟩ := hi.exec_eq
  have hk1 : k.toNat ≠ 1 := by omega
  simp only [he, splitCommand, (validateSplit_eq_none_iff n k).2 hv, splitRandom, hk1, if_false, rngRead_fail hs,
    raise_eq]
  rfl

/-- A split with `k >= 2` whose request has no answer changes nothing (R236; log entry 4). -/
theorem IsSplit.exec_unanswered (hk : 2 ≤ k.toNat) {s : State} (hs : rngRead (32 * (k.toNat - 1)) s = .unanswered) :
    exec i s = .next s := by
  obtain ⟨secret, frame, he⟩ := hi.exec_eq
  have hk1 : k.toNat ≠ 1 := by omega
  simp only [he, splitCommand, (validateSplit_eq_none_iff n k).2 hv, splitRandom, hk1, if_false, hs, wait]

end

/-- `s` without what an answered command has consumed: the oldest random answer if it asks for one, and its draws
(R43, R143). -/
def consumed (i : Instr) (s : State) : State :=
  { s with rng := if randomNeed i = 0 then s.rng else s.rng.tail, draws := s.draws + drawsNeeded i }

@[simp] theorem consumed_rsp (i : Instr) (s : State) : (consumed i s).rsp = s.rsp := rfl

theorem consumed_eq_afterDraws {i : Instr} (h : randomNeed i = 0) (s : State) :
    consumed i s = afterDraws (drawsNeeded i) s := by
  simp [consumed, afterDraws, h]

theorem consumed_eq_afterAnswer {i : Instr} (ha : AsksRandom i) {s : State} {a : RngAnswer} {rest : List RngAnswer}
    (hs : s.rng = a :: rest) : consumed i s = afterAnswer rest s := by
  obtain ⟨n, k, hi, -, -⟩ := exists_isSplit_of_asksRandom ha
  simp [consumed, afterAnswer, if_neg ha, hs, hi.drawsNeeded_eq]

theorem exec_of_randomNeed_eq_zero {i : Instr} (h : randomNeed i = 0) (s : State) :
    ∃ r, LegalResponse r ∧ exec i s = .next (answered r (consumed i s)) := by
  rw [consumed_eq_afterDraws h]
  have hd := exec_does i s
  obtain ⟨t, ht⟩ := exec_total i s
  have hdraws := exec_draws ht
  rw [ht] at hd ⊢
  cases hd with
  | answers r hr =>
    obtain h0 : drawsNeeded i = 0 := by simpa using hdraws
    rw [h0]
    exact ⟨r, hr, rfl⟩
  | draws n body hf =>
    obtain ⟨-, rfl⟩ := (engineFails_iff _ i n).1 hf
    exact ⟨_, legalResponse_ok body, rfl⟩
  | splits body r rest ha => exact absurd h ha
  | randomFails rest ha => exact absurd h ha
  | waits ha => exact absurd h ha

/-- A command whose random answer, if it needs one, is there consumes what it needs and delivers one legal response. -/
theorem exec_of_randomReady {i : Instr} {s : State} (h : RandomReady i s) :
    ∃ r, LegalResponse r ∧ exec i s = .next (answered r (consumed i s)) := by
  by_cases h0 : randomNeed i = 0
  · exact exec_of_randomNeed_eq_zero h0 s
  · obtain ⟨n, k, hi, hv, hk⟩ := exists_isSplit_of_asksRandom h0
    obtain ⟨rest, hs | ⟨r, hs, hr⟩⟩ := h.resolve_left h0
    · rw [consumed_eq_afterAnswer h0 hs]
      exact ⟨_, legalResponse_error .randomSourceFailure, hi.exec_fail hv hk hs⟩
    · rw [consumed_eq_afterAnswer h0 hs]
      obtain ⟨body, he⟩ := hi.exec_bytes hv hk hs (hr.trans (hi.randomNeed_eq hv))
      exact ⟨_, legalResponse_ok body, he⟩

/-- Any other command waits for the random port, and nothing has happened (R236; log entry 4). -/
theorem exec_of_not_randomReady {i : Instr} {s : State} (h : ¬ RandomReady i s) :
    AsksRandom i ∧ exec i s = .next s := by
  obtain ⟨ha, hs⟩ := not_or.1 h
  obtain ⟨n, k, hi, hv, hk⟩ := exists_isSplit_of_asksRandom ha
  refine ⟨ha, hi.exec_unanswered hv hk ?_⟩
  rw [← hi.randomNeed_eq hv]
  obtain ⟨rest, hf, -⟩ | ⟨r, rest, hb, hr, -⟩ | hu := rngRead_cases (randomNeed i) s
  · exact absurd ⟨rest, .inl hf⟩ hs
  · exact absurd ⟨rest, .inr ⟨r, hb, hr⟩⟩ hs
  · exact hu

/-- Settles O45: a command that changes `RNG` asks and was answered, so it is a valid split with `k >= 2`; the other clauses are
the equations of a split with `k = 1` and of one that gets its bytes. -/
theorem onlyValidatedSplitsReadTheRandomPort : Obligations.OnlyValidatedSplitsReadTheRandomPort := by
  refine ⟨fun i s t h hne => ?_, fun n k secret key env s hv hk => ?_, fun n k secret key env r rest s hv hk hs hr => ?_⟩
  · have hd := exec_does i s
    rw [h] at hd
    cases hd with
    | answers r _ => exact absurd rfl hne
    | draws m body _ => exact absurd rfl hne
    | splits body r rest ha hs hr =>
      obtain ⟨n, k, hi, hv, hk⟩ := exists_isSplit_of_asksRandom ha
      exact ⟨n, k, hi, hv, hk, .inr ⟨r, hs, hr.trans (hi.randomNeed_eq hv)⟩⟩
    | randomFails rest ha hs =>
      obtain ⟨n, k, hi, hv, hk⟩ := exists_isSplit_of_asksRandom ha
      exact ⟨n, k, hi, hv, hk, .inl hs⟩
    | waits _ => exact absurd rfl hne
  · obtain ⟨body, h⟩ := (isSplit_ksplit n k secret).exec_threshold_one hv hk s
    obtain ⟨body', h'⟩ := (isSplit_fsplit n k key env).exec_threshold_one hv hk s
    exact ⟨body, body', h, h'⟩
  · obtain ⟨body, h⟩ := (isSplit_ksplit n k secret).exec_bytes hv hk hs hr
    obtain ⟨body', h'⟩ := (isSplit_fsplit n k key env).exec_bytes hv hk hs hr
    exact ⟨body, body', h, h'⟩

end Sys2Proof.Machine
end

section
/-! What one step does (20_memory.md R50, R51; 60_exceptions.md R205): it runs the frame it fetches, keeps the invariant of a run,
answers a ready command at once, and does not see what is offered behind the frame it takes. -/

namespace Sys2Proof.Machine

theorem fetch_busy {s : State} {f : Frame} (hp : s.phase = .busy f) : fetch s = some (f, s) := by simp [fetch, hp]

theorem fetch_eq_none_iff (s : State) : fetch s = none ↔ s.phase = .idle ∧ s.cmd = [] := by
  obtain ⟨f, hp, hf⟩ | ⟨hp, hc, hf⟩ | ⟨f, rest, -, hc, hf⟩ := fetch_cases s
  · simp [hf, hp]
  · simp [hf, hp, hc]
  · simp [hf, hc]

theorem step_of_fetch_none {s : State} (hf : fetch s = none) : step s = .next s := by simp only [step, hf]

theorem step_of_decode_ok {s t : State} {f : Frame} {i : Instr} (hf : fetch s = some (f, t)) (hd : decode f = .ok i) :
    step s = exec i t := by
  simp only [step, hf, hd]

theorem step_of_decode_error {s t : State} {f : Frame} {e : DecodeError} (hf : fetch s = some (f, t))
    (hd : decode f = .error e) : step s = rejectFrame e t := by
  simp only [step, hf, hd]

theorem rejectFrame_legalResponse (e : DecodeError) :
    ∃ r, LegalResponse r ∧ ∀ s, rejectFrame e s = .next (answered r s) := by
  cases e with
  | illegalOpcode => exact ⟨_, legalResponse_error .illegalOpcode, raise_eq .illegalOpcode⟩
  | badFrame => exact ⟨_, legalResponse_error .badFrame, raise_eq .badFrame⟩

theorem inv_answered {r : Frame} (hr : LegalResponse r) {s : State} (hs : ∀ r ∈ s.rsp, LegalResponse r) :
    Inv (answered r s) := by
  refine ⟨?_, fun f hf => nomatch hf⟩
  rw [answered_rsp]
  exact List.forall_mem_append.2 ⟨hs, List.forall_mem_singleton.2 hr⟩

/-- Settles O54: a step that delivers a response leaves an idle unit, and any other leaves it waiting for the host or as a split
that waits for the random port. -/
theorem everyStepKeepsTheInvariant : Obligations.EveryStepKeepsTheInvariant := by
  intro s t hinv h
  obtain ⟨-, hs⟩ | ⟨f, u, i, hf, hd, hs⟩ | ⟨f, u, e, hf, -, hs⟩ := step_cases s
  · rw [hs] at h
    cases h
    exact hinv
  · obtain ⟨hp, hrsp, -⟩ := fetch_frame hf
    have hu : ∀ r ∈ u.rsp, LegalResponse r := hrsp ▸ hinv.1
    by_cases hr : RandomReady i u
    · obtain ⟨r, hlegal, he⟩ := exec_of_randomReady hr
      rw [hs, he] at h
      cases h
      exact inv_answered hlegal hu
    · obtain ⟨ha, he⟩ := exec_of_not_randomReady hr
      rw [hs, he] at h
      cases h
      refine ⟨hu, fun g hg => ?_⟩
      obtain rfl : f = g := Phase.busy.inj (hp.symm.trans hg)
      exact ⟨i, hd, ha⟩
  · obtain ⟨r, hlegal, he⟩ := rejectFrame_legalResponse e
    rw [hs, he] at h
    cases h
    exact inv_answered hlegal ((fetch_frame hf).2.1 ▸ hinv.1)

/-- Settles O43: the oldest frame is rejected, or decodes to a command that is ready. -/
theorem readyCommandIsAnsweredInOneStep : Obligations.ReadyCommandIsAnsweredInOneStep := by
  intro s f rest hp hc hready
  have hf := fetch_waiting hp hc
  cases hd : decode f with
  | ok i =>
    have hr : RandomReady i { s with phase := .busy f, cmd := rest } := hready i hd
    obtain ⟨r, hlegal, he⟩ := exec_of_randomReady hr
    exact ⟨r, _, (step_of_decode_ok hf hd).trans he, rfl, rfl, rfl, hlegal⟩
  | error e =>
    obtain ⟨r, hlegal, he⟩ := rejectFrame_legalResponse e
    exact ⟨r, _, (step_of_decode_error hf hd).trans (he _), rfl, rfl, rfl, hlegal⟩

theorem fetch_offer {s t : State} {f : Frame} (g : Frame) (h : fetch s = some (f, t)) :
    fetch (offer g s) = some (f, offer g t) := by
  obtain ⟨f', hp, hf⟩ | ⟨-, -, hf⟩ | ⟨f', rest, hp, hc, hf⟩ := fetch_cases s
  · rw [hf] at h
    cases h
    exact fetch_busy hp
  · rw [hf] at h
    cases h
  · rw [hf] at h
    cases h
    exact fetch_waiting (rest := rest ++ [g]) hp (by simp [hc])

/-- A command does not see the frames that wait on `CMD`. -/
theorem exec_offer {i : Instr} {s t : State} (g : Frame) (h : exec i s = .next t) :
    exec i (offer g s) = .next (offer g t) := by
  by_cases hr : RandomReady i s
  · obtain ⟨r, -, he⟩ := exec_of_randomReady hr
    have hr' : RandomReady i (offer g s) := hr
    obtain ⟨r', -, he'⟩ := exec_of_randomReady hr'
    have same := responseDependsOnNothingElse i s (offer g s) _ _ he he' rfl (fun _ => rfl) fun _ => rfl
    obtain rfl : r = r' := by simpa using same
    rw [he] at h
    cases h
    exact he'
  · rw [(exec_of_not_randomReady hr).2] at h
    cases h
    have hr' : ¬ RandomReady i (offer g s) := hr
    exact (exec_of_not_randomReady hr').2

/-- Settles O50: the same frame is fetched with and without the offered one, and neither a command nor a rejection sees the frames
that wait. -/
theorem offeredFrameWaitsItsTurn : Obligations.OfferedFrameWaitsItsTurn := by
  intro s t g hbusy h
  obtain ⟨hf, -⟩ | ⟨f, u, i, hf, hd, hs⟩ | ⟨f, u, e, hf, hd, hs⟩ := step_cases s
  · obtain ⟨hp, hc⟩ := (fetch_eq_none_iff s).1 hf
    exact (hbusy.elim (· hp) (· hc)).elim
  · rw [step_of_decode_ok (fetch_offer g hf) hd]
    exact exec_offer g (hs ▸ h)
  · obtain ⟨r, he⟩ := rejectFrame_response e
    rw [hs, he] at h
    cases h
    rw [step_of_decode_error (fetch_offer g hf) hd, he]
    rfl

/-- Settles O40, by the equations of `step` for a frame that decodes and for one that does not. -/
theorem stepRunsTheDecodedCommand : Obligations.StepRunsTheDecodedCommand := by
  refine ⟨fun s f rest i hp hc hd => step_of_decode_ok (fetch_waiting hp hc) hd,
    fun s f i hp hd => step_of_decode_ok (fetch_busy hp) hd, fun s f rest hp hc => ⟨fun hd => ?_, fun hd => ?_⟩⟩
  · rw [step_of_decode_error (fetch_waiting hp hc) hd]
    exact raise_eq .illegalOpcode _
  · rw [step_of_decode_error (fetch_waiting hp hc) hd]
    exact raise_eq .badFrame _

/-- Settles O41: nothing is fetched. -/
theorem idleUnitWaitsForTheHost : Obligations.IdleUnitWaitsForTheHost :=
  fun s hp hc => step_of_fetch_none ((fetch_eq_none_iff s).2 ⟨hp, hc⟩)

end Sys2Proof.Machine
end

section
/-! Records behind a 16-bit count, the body of formats FL and FV (30_encoding.md R75): what reads them, what writes them, and where
they end. -/

namespace Sys2Proof.Machine

theorem recordsFit_iff (recs : List Frame) : recordsFit recs = true ↔ Sendable recs := by
  simp [recordsFit, Sendable]

theorem toNat_ofNat_length {α : Type} {l : List α} (h : l.length ≤ 65535) : (BitVec.ofNat 16 l.length).toNat = l.length := by
  rw [BitVec.toNat_ofNat]
  omega

theorem countField_of_length_eq {α : Type} {l : List α} {lo hi : Byte} (h : l.length = (fromU16le lo hi).toNat) :
    countField l = [lo, hi] := by
  rw [countField, h, BitVec.ofNat_toNat, BitVec.setWidth_eq, u16le_fromU16le]

theorem sum_map_of_forall_eq {α : Type} {f : α → ℕ} {l : List α} {n : ℕ} (h : ∀ x ∈ l, f x = n) :
    (l.map f).sum = n * l.length := by
  rw [List.sum_eq_card_nsmul (l.map f) n (by simpa using h), List.length_map, smul_eq_mul, mul_comm]

/-- The records from the count field on, as `decodeOperands` reads them in formats FL and FV (R75). -/
def takeCountedRecords : Frame → Option (List Frame)
  | c0 :: c1 :: body => takeRecords (fromU16le c0 c1).toNat body
  | _ => none

theorem takeCountedRecords_eq_some_iff (bs : Frame) (recs : List Frame) :
    takeCountedRecords bs = some recs ↔ recordsFit recs = true ∧ countField recs ++ putRecords recs = bs := by
  rw [recordsFit_iff]
  constructor
  · intro h
    match bs, h with
    | c0 :: c1 :: body, h =>
      obtain ⟨rfl, hlen, hrecs⟩ := putRecords_takeRecords _ _ _ h
      have := (fromU16le c0 c1).isLt
      exact ⟨⟨by omega, hrecs⟩, by rw [countField_of_length_eq hlen]; rfl⟩
  · rintro ⟨⟨hlen, hrecs⟩, rfl⟩
    simp only [countField, u16le, List.cons_append, List.nil_append, takeCountedRecords, fromU16le_u16le,
      toNat_ofNat_length hlen, takeRecords_putRecords recs hrecs]

/-- Four commands have format FL (R80): `mk` is the one with opcode `o`. -/
inductive ListCommand : Opcode → (List Frame → Instr) → Prop where
  | kcomb : ListCommand .kcomb .kcomb
  | dedup : ListCommand .dedup .dedup
  | funframe : ListCommand .funframe .funframe
  | fcomb : ListCommand .fcomb .fcomb

namespace ListCommand

variable {o : Opcode} {mk : List Frame → Instr}

theorem opcode_eq (h : ListCommand o mk) (recs : List Frame) : opcode (mk recs) = o := by cases h <;> rfl

theorem wellFormed_eq (h : ListCommand o mk) (recs : List Frame) : wellFormed (mk recs) = recordsFit recs := by
  cases h <;> rfl

theorem encodeOperands_eq (h : ListCommand o mk) (recs : List Frame) :
    encodeOperands (mk recs) = countField recs ++ putRecords recs := by
  cases h <;> rfl

theorem decodeOperands_eq (h : ListCommand o mk) (op : Byte) (bs : Frame) :
    decodeOperands o (op :: bs) = (takeCountedRecords bs).map mk := by
  match bs with
  | [] | [_] | _ :: _ :: _ => cases h <;> rfl

end ListCommand

theorem decodeOperands_valcomb (op kind : Byte) (bs : Frame) :
    decodeOperands .valcomb (op :: kind :: bs) =
      (kindOf kind).bind fun kd => (takeCountedRecords bs).map (.valcomb kd) := by
  match bs with
  | [] | [_] => cases kindOf kind <;> rfl
  | _ :: _ :: _ => rfl

theorem kindOf_eq_some_iff (b : Byte) (kind : ShareKind) : kindOf b = some kind ↔ kindByte kind = b := by
  unfold kindOf
  constructor
  · intro h
    split at h
    · next hb => cases h; exact hb.symm
    · split at h
      · next hb => cases h; exact hb.symm
      · cases h
  · rintro rfl
    cases kind <;> rfl

theorem isSome_kindOf_iff (b : Byte) : (kindOf b).isSome ↔ b.toNat ≤ 1 := by
  simp only [Option.isSome_iff_exists, kindOf_eq_some_iff]
  constructor
  · rintro ⟨kind, rfl⟩
    cases kind <;> decide
  · intro h
    obtain h0 | h1 : b.toNat = 0 ∨ b.toNat = 1 := by omega
    · exact ⟨.keyShare, BitVec.eq_of_toNat_eq h0.symm⟩
    · exact ⟨.fullShare, BitVec.eq_of_toNat_eq h1.symm⟩

theorem le_recordsEnd (g : Nat → Byte) (o n : Nat) : o + n ≤ recordsEnd g o n := by
  induction n generalizing o with
  | zero => rfl
  | succ n ih =>
    have := ih (o + 1 + (g o).toNat)
    rw [recordsEnd]
    omega

theorem drop_eq_byteAt_cons {f : Frame} {o : Nat} (h : o < f.length) : f.drop o = byteAt f o :: f.drop (o + 1) := by
  rw [List.drop_eq_getElem_cons h, byteAt, List.getD_eq_getElem _ _ h]

/-- `n` records can be read from offset `o` on exactly when the last of them ends where the frame does (R75, R76). -/
theorem isSome_takeRecords_iff (f : Frame) (n : Nat) {o : Nat} (ho : o ≤ f.length) :
    (takeRecords n (f.drop o)).isSome ↔ f.length = recordsEnd (byteAt f) o n := by
  induction n generalizing o with
  | zero =>
    obtain hlt | rfl := ho.lt_or_eq
    · rw [drop_eq_byteAt_cons hlt]
      exact iff_of_false (by simp [takeRecords]) hlt.ne'
    · simp [takeRecords, recordsEnd]
  | succ n ih =>
    have hend := le_recordsEnd (byteAt f) (o + 1 + (byteAt f o).toNat) n
    rw [recordsEnd]
    obtain hlt | rfl := ho.lt_or_eq
    · rw [drop_eq_byteAt_cons hlt, takeRecords, List.length_drop, List.drop_drop]
      split
      · rw [Option.isSome_map, ih (by omega)]
      · exact iff_of_false (by simp) (by omega)
    · exact iff_of_false (by simp [takeRecords]) (by omega)

/-- The same from the offset `o` of the count field on. -/
theorem isSome_takeCountedRecords_iff (f : Frame) (o : Nat) :
    (takeCountedRecords (f.drop o)).isSome ↔
      f.length = recordsEnd (byteAt f) (o + 2) (fromU16le (byteAt f o) (byteAt f (o + 1))).toNat := by
  by_cases ho : o + 2 ≤ f.length
  · rw [drop_eq_byteAt_cons (show o < f.length by omega), drop_eq_byteAt_cons (show o + 1 < f.length by omega)]
    exact isSome_takeRecords_iff f _ ho
  · have hend := le_recordsEnd (byteAt f) (o + 2) (fromU16le (byteAt f o) (byteAt f (o + 1))).toNat
    refine iff_of_false ?_ (by omega)
    rw [Option.isSome_iff_exists]
    rintro ⟨recs, h⟩
    have hlen := congrArg List.length ((takeCountedRecords_eq_some_iff _ _).1 h).2
    simp only [List.length_append, countField, length_u16le, List.length_drop] at hlen
    omega

end Sys2Proof.Machine
end

section
/-! The encoding (30_encoding.md R70 to R76, R80, R81): the decoder undoes the encoder and the encoder the decoder, and a frame
decodes exactly when it is as long as its own header implies. -/

namespace Sys2Proof.Machine

theorem wellFormed_peval_iff {x : Byte} {c : List Byte} : wellFormed (.peval x c) = true ↔ c.length ≤ 255 :=
  decide_eq_true_iff

theorem wellFormed_ksplit_iff {n k : U16} {secret : Frame} :
    wellFormed (.ksplit n k secret) = true ↔ secret.length = 32 :=
  decide_eq_true_iff

theorem wellFormed_lagr0_iff {points : List (Byte × Byte)} : wellFormed (.lagr0 points) = true ↔ points.length ≤ 255 :=
  decide_eq_true_iff

theorem wellFormed_kframe_iff {index : Byte} {payload : Frame} :
    wellFormed (.kframe index payload) = true ↔ payload.length = 32 :=
  decide_eq_true_iff

theorem wellFormed_kunframe_iff {share : Frame} : wellFormed (.kunframe share) = true ↔ share.length ≤ 255 :=
  decide_eq_true_iff

theorem wellFormed_fframe_iff {env : Frame} {keyShares : List Frame} :
    wellFormed (.fframe env keyShares) = true ↔
      env.length = 80 ∧ keyShares.length ≤ 65535 ∧ ∀ ks ∈ keyShares, ks.length = 33 := by
  simp [wellFormed, and_assoc]

theorem wellFormed_fsplit_iff {n k : U16} {key env : Frame} :
    wellFormed (.fsplit n k key env) = true ↔ key.length = 32 ∧ env.length = 80 := by
  simp [wellFormed]

theorem opcodeOf_opcodeByte (o : Opcode) : opcodeOf (opcodeByte o) = some o := by cases o <;> rfl

theorem opcodeByte_of_opcodeOf {b : Byte} {o : Opcode} (h : opcodeOf b = some o) : opcodeByte o = b := by
  simpa using List.find?_some h

theorem decode_cons_eq_ok_iff {op : Byte} {o : Opcode} (h : opcodeOf op = some o) (bs : Frame) (i : Instr) :
    decode (op :: bs) = .ok i ↔ decodeOperands o (op :: bs) = some i := by
  simp only [decode, h]
  cases decodeOperands o (op :: bs) <;> simp

theorem exists_opcodeOf_of_decode {op : Byte} {bs : Frame} {i : Instr} (h : decode (op :: bs) = .ok i) :
    ∃ o, opcodeOf op = some o := by
  cases ho : opcodeOf op with
  | none => simp [decode, ho] at h
  | some o => exact ⟨o, rfl⟩

theorem decode_ok_or_badFrame {op : Byte} {o : Opcode} (h : opcodeOf op = some o) (bs : Frame) :
    (∃ i, decode (op :: bs) = .ok i) ∨ decode (op :: bs) = .error .badFrame := by
  simp only [decode, h]
  cases decodeOperands o (op :: bs) with
  | none => exact .inr rfl
  | some i => exact .inl ⟨i, rfl⟩

theorem ListCommand.decodeOperands_put {o : Opcode} {mk : List Frame → Instr} (hl : ListCommand o mk) {op : Byte}
    {recs : List Frame} (h : recordsFit recs = true) :
    decodeOperands o (op :: (countField recs ++ putRecords recs)) = some (mk recs) := by
  rw [hl.decodeOperands_eq, (takeCountedRecords_eq_some_iff _ _).2 ⟨h, rfl⟩]
  rfl

/-- Each reader undoes its writer, so the decoder of a format undoes its encoder (R71 to R75). -/
theorem decodeOperands_encode {i : Instr} (h : wellFormed i = true) :
    decodeOperands (opcode i) (encode i) = some i := by
  cases i with
  | gfadd a b => rfl
  | gfmul a b => rfl
  | gfinv a => rfl
  | peval x c =>
    have hc := wellFormed_peval_iff.1 h
    simp +arith [encode, encodeOperands, opcode, decodeOperands, toNat_byteOf hc]
  | ksplit n k secret =>
    have hs := wellFormed_ksplit_iff.1 h
    simp [encode, encodeOperands, opcode, decodeOperands, u16le, memRead, hs]
  | lagr0 points =>
    have hp := wellFormed_lagr0_iff.1 h
    simp +arith [encode, encodeOperands, opcode, decodeOperands, toNat_byteOf hp, takePoints_putPoints]
  | kcomb recs => exact ListCommand.kcomb.decodeOperands_put h
  | valsplit n k => simp [encode, encodeOperands, opcode, decodeOperands, u16le]
  | valcomb kind recs =>
    rw [encode, encodeOperands, List.cons_append, opcode, decodeOperands_valcomb, (kindOf_eq_some_iff _ _).2 rfl,
      (takeCountedRecords_eq_some_iff _ _).2 ⟨h, rfl⟩]
    rfl
  | dedup recs => exact ListCommand.dedup.decodeOperands_put h
  | kframe index payload =>
    have hp := wellFormed_kframe_iff.1 h
    simp [encode, encodeOperands, opcode, decodeOperands, memRead, hp]
  | kunframe share =>
    have hs := wellFormed_kunframe_iff.1 h
    simp +arith [encode, encodeOperands, opcode, decodeOperands, toNat_byteOf hs]
  | fframe env keyShares =>
    obtain ⟨he, hn, hk⟩ := wellFormed_fframe_iff.1 h
    simp +arith [encode, encodeOperands, opcode, decodeOperands, countField, u16le, memRead, he, toNat_ofNat_length hn,
      takeChunks_flatten _ _ hk, sum_map_of_forall_eq hk]
  | funframe recs => exact ListCommand.funframe.decodeOperands_put h
  | fsplit n k key env =>
    obtain ⟨hk, he⟩ := wellFormed_fsplit_iff.1 h
    simp [encode, encodeOperands, opcode, decodeOperands, u16le, memRead, hk, he]
  | fcomb recs => exact ListCommand.fcomb.decodeOperands_put h

theorem decode_encode {i : Instr} (h : wellFormed i = true) : decode (encode i) = .ok i := by
  rw [(Laws.Opened.statement_of_opcodeOf (opcodeOf_opcodeByte (opcode i))).2, decodeOperands_encode h]

theorem ListCommand.encode_of_decodeOperands {o : Opcode} {mk : List Frame → Instr} (hl : ListCommand o mk) {op : Byte}
    {bs : Frame} {i : Instr} (h : decodeOperands o (op :: bs) = some i) :
    wellFormed i = true ∧ opcode i = o ∧ encodeOperands i = bs := by
  rw [hl.decodeOperands_eq] at h
  obtain ⟨recs, hrecs, rfl⟩ := Option.map_eq_some_iff.1 h
  rw [hl.wellFormed_eq, hl.opcode_eq, hl.encodeOperands_eq]
  obtain ⟨hfit, hput⟩ := (takeCountedRecords_eq_some_iff _ _).1 hrecs
  exact ⟨hfit, rfl, hput⟩

theorem toNat_le_255 (b : Byte) : b.toNat ≤ 255 := Nat.le_of_lt_succ b.isLt

/-- What the decoder of a format accepts, the encoder gives back (R71 to R75). -/
theorem encode_of_decodeOperands {o : Opcode} {f : Frame} {i : Instr} (h : decodeOperands o f = some i) :
    wellFormed i = true ∧ opcode i = o ∧ encodeOperands i = f.tail := by
  match o, f, h with
  | .gfadd, [_, a, b], rfl => exact ⟨rfl, rfl, rfl⟩
  | .gfmul, [_, a, b], rfl => exact ⟨rfl, rfl, rfl⟩
  | .gfinv, [_, a], rfl => exact ⟨rfl, rfl, rfl⟩
  | .peval, _ :: k :: x :: c, h =>
    obtain ⟨hlen, ⟨⟩⟩ := Option.ite_none_right_eq_some.1 h
    simp only [List.length_cons] at hlen
    have hc : c.length = k.toNat := by omega
    simp [wellFormed, opcode, encodeOperands, hc, toNat_le_255]
  | .ksplit, _ :: n0 :: n1 :: k0 :: k1 :: secret, h =>
    obtain ⟨hlen, ⟨⟩⟩ := Option.ite_none_right_eq_some.1 h
    have hs : secret.length = 32 := by simpa using hlen
    simp [wellFormed, opcode, encodeOperands, u16le_fromU16le, memRead, hs]
  | .lagr0, _ :: m :: pts, h =>
    obtain ⟨hlen, ⟨⟩⟩ := Option.ite_none_right_eq_some.1 h
    simp only [List.length_cons] at hlen
    obtain ⟨hput, hp⟩ := putPoints_takePoints m.toNat pts (by omega)
    simp [wellFormed, opcode, encodeOperands, hput, hp, toNat_le_255]
  | .kcomb, _ :: bs, h => exact ListCommand.kcomb.encode_of_decodeOperands h
  | .valsplit, [_, n0, n1, k0, k1], rfl =>
    simp [wellFormed, opcode, encodeOperands, u16le_fromU16le]
  | .valcomb, _ :: kind :: bs, h =>
    rw [decodeOperands_valcomb] at h
    obtain ⟨kd, hk, h⟩ := Option.bind_eq_some_iff.1 h
    obtain ⟨recs, hrecs, rfl⟩ := Option.map_eq_some_iff.1 h
    obtain ⟨hfit, hput⟩ := (takeCountedRecords_eq_some_iff _ _).1 hrecs
    refine ⟨hfit, rfl, ?_⟩
    rw [encodeOperands, List.cons_append, hput, (kindOf_eq_some_iff _ _).1 hk]
    rfl
  | .dedup, _ :: bs, h => exact ListCommand.dedup.encode_of_decodeOperands h
  | .kframe, _ :: index :: payload, h =>
    obtain ⟨hlen, ⟨⟩⟩ := Option.ite_none_right_eq_some.1 h
    have hp : payload.length = 32 := by simpa using hlen
    simp [wellFormed, opcode, encodeOperands, memRead, hp]
  | .kunframe, _ :: len :: share, h =>
    obtain ⟨hlen, ⟨⟩⟩ := Option.ite_none_right_eq_some.1 h
    simp only [List.length_cons] at hlen
    have hs : share.length = len.toNat := by omega
    simp [wellFormed, opcode, encodeOperands, hs, toNat_le_255]
  | .fframe, _ :: n0 :: n1 :: body, h =>
    obtain ⟨hlen, ⟨⟩⟩ := Option.ite_none_right_eq_some.1 h
    simp only [List.length_cons] at hlen
    obtain ⟨hflat, hn, hks⟩ := flatten_takeChunks 33 (fromU16le n0 n1).toNat (body.drop 80) (by
      rw [List.length_drop]
      omega)
    have hcount := (fromU16le n0 n1).isLt
    have henv := memRead_length (f := body) (addr := 0) (n := 80) (by omega)
    refine ⟨wellFormed_fframe_iff.2 ⟨henv, hn.trans_le (by omega), hks⟩, rfl, ?_⟩
    simp [encodeOperands, memRead, countField_of_length_eq hn, hflat]
  | .funframe, _ :: bs, h => exact ListCommand.funframe.encode_of_decodeOperands h
  | .fsplit, _ :: n0 :: n1 :: k0 :: k1 :: body, h =>
    obtain ⟨hlen, ⟨⟩⟩ := Option.ite_none_right_eq_some.1 h
    have hs : body.length = 112 := by simpa using hlen
    have hkey : body.take 32 ++ (body.drop 32).take 80 = body := by
      rw [List.take_of_length_le (l := body.drop 32) (by simp [hs]), List.take_append_drop]
    simp [wellFormed, opcode, encodeOperands, u16le_fromU16le, memRead, hs, hkey]
  | .fcomb, _ :: bs, h => exact ListCommand.fcomb.encode_of_decodeOperands h

theorem ListCommand.isSome_decodeOperands_iff {o : Opcode} {mk : List Frame → Instr} (hl : ListCommand o mk) (op : Byte)
    (bs : Frame) :
    (decodeOperands o (op :: bs)).isSome ↔ (op :: bs).length =
      recordsEnd (byteAt (op :: bs)) 3 (fromU16le (byteAt (op :: bs) 1) (byteAt (op :: bs) 2)).toNat := by
  rw [hl.decodeOperands_eq, Option.isSome_map]
  exact isSome_takeCountedRecords_iff (op :: bs) 1

theorem isSome_decodeOperands_valcomb_iff (op : Byte) (bs : Frame) :
    (decodeOperands .valcomb (op :: bs)).isSome ↔ (op :: bs).length =
        recordsEnd (byteAt (op :: bs)) 4 (fromU16le (byteAt (op :: bs) 2) (byteAt (op :: bs) 3)).toNat ∧
      (byteAt (op :: bs) 1).toNat ≤ 1 := by
  rw [← isSome_takeCountedRecords_iff (op :: bs) 2]
  match bs with
  | [] => simp [decodeOperands, takeCountedRecords]
  | kind :: bs =>
    rw [show byteAt (op :: kind :: bs) 1 = kind from rfl, ← isSome_kindOf_iff, decodeOperands_valcomb]
    cases kindOf kind <;> simp

/-- A frame decodes by the format of its opcode exactly when it is as long as its header implies (R76). -/
theorem isSome_decodeOperands_iff {op : Byte} {o : Opcode} (h : opcodeOf op = some o) (bs : Frame) :
    (decodeOperands o (op :: bs)).isSome ↔
      (op :: bs).length = impliedLength (byteAt (op :: bs)) ∧ (o = .valcomb → (byteAt (op :: bs) 1).toNat ≤ 1) := by
  simp only [impliedLength, show opcodeOf (byteAt (op :: bs) 0) = some o from h]
  cases o with
  | gfadd =>
    match bs with
    | [_, _] | [] | [_] | _ :: _ :: _ :: _ => simp [decodeOperands]
  | gfmul =>
    match bs with
    | [_, _] | [] | [_] | _ :: _ :: _ :: _ => simp [decodeOperands]
  | gfinv =>
    match bs with
    | [_] | [] | _ :: _ :: _ => simp [decodeOperands]
  | peval =>
    match bs with
    | k :: x :: c => simp [decodeOperands, byteAt]
    | [] | [_] => simp +arith [decodeOperands, byteAt]
  | ksplit =>
    match bs with
    | _ :: _ :: _ :: _ :: _ | [] | [_] | [_, _] | [_, _, _] => simp [decodeOperands]
  | lagr0 =>
    match bs with
    | _ :: _ | [] => simp [decodeOperands, byteAt]
  | kcomb => simpa using ListCommand.kcomb.isSome_decodeOperands_iff op bs
  | valsplit =>
    match bs with
    | [_, _, _, _] | [] | [_] | [_, _] | [_, _, _] | _ :: _ :: _ :: _ :: _ :: _ => simp [decodeOperands]
  | valcomb => simpa using isSome_decodeOperands_valcomb_iff op bs
  | dedup => simpa using ListCommand.dedup.isSome_decodeOperands_iff op bs
  | kframe =>
    match bs with
    | _ :: _ | [] => simp [decodeOperands]
  | kunframe =>
    match bs with
    | _ :: _ | [] => simp [decodeOperands, byteAt]
  | fframe =>
    match bs with
    | _ :: _ :: _ => simp [decodeOperands, byteAt]
    | [] | [_] => simp +arith [decodeOperands, byteAt]
  | funframe => simpa using ListCommand.funframe.isSome_decodeOperands_iff op bs
  | fsplit =>
    match bs with
    | _ :: _ :: _ :: _ :: _ | [] | [_] | [_, _] | [_, _, _] => simp [decodeOperands]
  | fcomb => simpa using ListCommand.fcomb.isSome_decodeOperands_iff op bs

/-- Settles O35, since each reader of operands undoes its writer. -/
theorem decodeUndoesEncode : Obligations.DecodeUndoesEncode := fun _ h => decode_encode h

/-- Settles O36: a frame that decodes opens with the opcode of its command, and the operands it is decoded to are written as they
stand in it. -/
theorem encodeUndoesDecode : Obligations.EncodeUndoesDecode := by
  intro f i h
  match f, h with
  | op :: bs, h =>
    obtain ⟨o, ho⟩ := exists_opcodeOf_of_decode h
    obtain ⟨hw, rfl, hbs⟩ := encode_of_decodeOperands ((decode_cons_eq_ok_iff ho bs i).1 h)
    exact ⟨hw, by rw [encode, hbs, opcodeByte_of_opcodeOf ho, List.tail_cons]⟩

/-- Settles O37, by the formats of the sixteen opcodes. -/
theorem frameLengthDecidesWellFormedness : Obligations.FrameLengthDecidesWellFormedness := by
  refine ⟨rfl, fun f op o hf ho => ?_⟩
  obtain ⟨bs, rfl⟩ := List.head?_eq_some_iff.1 hf
  refine ⟨?_, decode_ok_or_badFrame ho bs⟩
  simp only [decode_cons_eq_ok_iff ho, ← Option.isSome_iff_exists]
  exact isSome_decodeOperands_iff ho bs

end Sys2Proof.Machine
end

section
/-! Frames that are no command (30_encoding.md R76, R80, R81), frames written out byte by byte, and the parameter check that
FSPLIT repeats (R84). -/

namespace Sys2Proof.Machine

theorem opcodeOf_eq_none {op : Byte} (h : ∀ o, opcodeByte o ≠ op) : opcodeOf op = none := by
  simpa [opcodeOf] using fun o _ => h o

theorem decode_illegalOpcode {op : Byte} (h : opcodeOf op = none) (rest : Frame) :
    decode (op :: rest) = .error .illegalOpcode := by
  simp only [decode, h]

theorem decode_lone_opcode (o : Opcode) : decode [opcodeByte o] = .error .badFrame := by cases o <;> rfl

/-- A VALCOMB frame of a reserved kind is a BadFrame whatever its length is (R81). -/
theorem decode_valcomb_reserved_kind {kind : Byte} (h : 2 ≤ kind.toNat) (rest : Frame) :
    decode (0x31#8 :: kind :: rest) = .error .badFrame := by
  obtain ⟨hiff, hor⟩ := frameLengthDecidesWellFormedness.2 (0x31#8 :: kind :: rest) 0x31#8 .valcomb rfl rfl
  refine hor.resolve_left fun hok => ?_
  have hkind : kind.toNat ≤ 1 := (hiff.1 hok).2 rfl
  omega

/-- Settles O38: each of these frames decodes to its error, and a step answers that error. -/
theorem unassignedOpcodesAreIllegal : Obligations.UnassignedOpcodesAreIllegal := by
  have rejects {s : State} {f : Frame} (hp : s.phase = .idle) (hc : s.cmd.head? = some f) :=
    stepRunsTheDecodedCommand.2.2 s f s.cmd.tail hp (List.eq_cons_of_mem_head? hc)
  refine ⟨fun op rest s hop hp hc => ?_, fun o s hp hc => ?_, fun s hp hc => ?_,
    fun kind rest h => decode_valcomb_reserved_kind h rest⟩
  · refine (rejects hp hc).1 (decode_illegalOpcode (opcodeOf_eq_none ?_) rest)
    rintro o rfl
    cases o <;> exact hop (by decide)
  · exact (rejects hp hc).2 (decode_lone_opcode o)
  · exact (rejects hp hc).2 rfl

/-- Settles O39, by running the decoder. -/
theorem writtenOutFramesDecode : Obligations.WrittenOutFramesDecode :=
  ⟨rfl, rfl, rfl, rfl, rfl, rfl, rfl, rfl, rfl, rfl, rfl⟩

theorem exec_valsplit_of_some {n k : U16} {e : Error} (h : validateSplit n k = some e) (s : State) :
    exec (.valsplit n k) s = raise e s := by
  simp only [exec, execValsplit, h]

theorem exec_valsplit_of_none {n k : U16} (h : validateSplit n k = none) (s : State) :
    exec (.valsplit n k) s = .next (answered [0x00#8] s) := by
  simp only [exec, execValsplit, h, ret_eq]

theorem exec_fsplit_of_some {n k : U16} {e : Error} (h : validateSplit n k = some e) (key env : Frame) (s : State) :
    exec (.fsplit n k key env) s = raise e s := by
  simp only [exec, execFsplit, splitCommand, h]

/-- Settles O53: both commands ask `validate_split`, so an error of it is the answer of both; without one the parameters are valid
and VALSPLIT answers OK. -/
theorem revalidationChangesNothing : Obligations.RevalidationChangesNothing := by
  refine ⟨fun key env n k => rfl, fun n k key env s e he => ?_⟩
  cases hv : validateSplit n k with
  | some err =>
    have invalid : ¬ ValidParams n.toNat k.toNat := by simp [← validateSplit_eq_none_iff, hv]
    rw [exec_valsplit_of_some hv, exec_fsplit_of_some hv, and_iff_left invalid]
  | none =>
    refine iff_of_false (fun h => he ?_) fun h => h.2 ((validateSplit_eq_none_iff n k).1 hv)
    rw [exec_valsplit_of_none hv] at h
    simpa [answered] using h.symm

end Sys2Proof.Machine
end

section
/-! The response of a command (30_encoding.md R77, R78): its status, and how long its body is. -/

namespace Sys2Proof.Machine

/-- If the outcome `o` of a command executed in `s` is one OK response, the body of that response has length `n`. -/
def OkBodyHasLength (n : ℕ) (s : State) (o : Outcome) : Prop :=
  ∀ t body, o = .next t → t.rsp = s.rsp ++ [0x00#8 :: body] → body.length = n

theorem statusByte_errorStatus_ne_ok (e : Error) : statusByte (errorStatus e) ≠ 0x00#8 := by
  cases e <;> simp [errorStatus, statusByte]

section
variable {n : ℕ} {s t : State}

theorem okBodyHasLength_ret {body : Frame} (h : body.length = n) (ht : t.rsp = s.rsp) :
    OkBodyHasLength n s (ret body t) := by
  intro u body' hu hrsp
  rw [ret_eq] at hu
  cases hu
  obtain rfl : body = body' := by simpa [ht] using hrsp
  exact h

theorem okBodyHasLength_raise (e : Error) (ht : t.rsp = s.rsp) : OkBodyHasLength n s (raise e t) := by
  intro u body hu hrsp
  rw [raise_eq] at hu
  cases hu
  have hstatus : statusByte (errorStatus e) = 0x00#8 ∧ errorBody e = body := by simpa [ht] using hrsp
  exact absurd hstatus.1 (statusByte_errorStatus_ne_ok e)

theorem okBodyHasLength_wait : OkBodyHasLength n s (wait s) := by
  intro u body hu hrsp
  cases hu
  simp at hrsp

theorem okBodyHasLength_retDrawn {m : ℕ} {tail : Frame} (h : m + tail.length = n) :
    OkBodyHasLength n s (retDrawn m tail s) :=
  okBodyHasLength_ret (by rw [List.length_append, length_drawnBytes, h]) rfl

end

/-- Every share of a split is an index byte and one byte per lane (R122). -/
theorem length_of_mem_split {p : ReductionPoly} {secret r share : Frame} {n k : ℕ} (h : share ∈ split p secret n k r) :
    share.length = secret.length + 1 := by
  obtain ⟨x, -, rfl⟩ := List.mem_map.1 h
  simp [laneCoefficients]

@[simp] theorem length_split (p : ReductionPoly) (secret r : Frame) (n k : ℕ) : (split p secret n k r).length = n := by
  simp [split]

theorem length_flatMap_split {p : ReductionPoly} {secret r : Frame} {n k m : ℕ} {frame : Frame → Frame}
    (hf : ∀ share, (frame share).length = share.length + m) :
    ((split p secret n k r).flatMap frame).length = (secret.length + 1 + m) * n := by
  rw [List.length_flatMap, sum_map_of_forall_eq fun share h => (hf share).trans (by rw [length_of_mem_split h]),
    length_split]

/-- What the random bytes of a split come to; `RSP` stays as it is (R43, R44). -/
theorem splitRandom_cases (k : ℕ) (s : State) :
    splitRandom k s = .unanswered ∨
    ∃ t, t.rsp = s.rsp ∧ (splitRandom k s = .failed t ∨ ∃ r, splitRandom k s = .answered r t) := by
  unfold splitRandom
  split
  · exact .inr ⟨s, rfl, .inr ⟨[], rfl⟩⟩
  · obtain ⟨rest, -, h⟩ | ⟨r, rest, -, -, h⟩ | h := rngRead_cases (Config.L * (k - 1)) s
    · exact .inr ⟨_, afterAnswer_rsp rest s, .inl h⟩
    · exact .inr ⟨_, afterAnswer_rsp rest s, .inr ⟨r, h⟩⟩
    · exact .inl h

theorem okBodyHasLength_splitCommand {n k : U16} {secret : Frame} {frame : Frame → Frame} {m len : ℕ} (s : State)
    (hf : ∀ share, (frame share).length = share.length + m) (hlen : (secret.length + 1 + m) * n.toNat = len) :
    OkBodyHasLength len s (splitCommand n k secret frame s) := by
  unfold splitCommand
  cases validateSplit n k with
  | some e => exact okBodyHasLength_raise e rfl
  | none =>
    obtain h | ⟨t, ht, h | ⟨r, h⟩⟩ := splitRandom_cases k.toNat s
    · rw [h]
      exact okBodyHasLength_wait
    · rw [h]
      exact okBodyHasLength_raise _ ht
    · rw [h]
      exact okBodyHasLength_ret ((length_flatMap_split hf).trans hlen) ht

theorem length_of_combine {p : ReductionPoly} {shares : List Frame} {key : Frame} (h : combine p shares = some key) :
    key.length = 32 := by
  obtain ⟨-, h⟩ := Option.ite_none_right_eq_some.1 h
  obtain ⟨ws, -, rfl⟩ := Option.map_eq_some_iff.1 h
  simp

theorem okBodyHasLength_combineCommand (shares : List Frame) (tail : Frame) (s : State) :
    OkBodyHasLength (32 + tail.length) s (combineCommand shares tail s) := by
  unfold combineCommand
  split
  · next key h => exact okBodyHasLength_ret (by rw [List.length_append, length_of_combine h]) rfl
  · exact okBodyHasLength_retDrawn rfl

/-! What a combine has checked when it goes on (R164, R183). -/

theorem forall_length_of_firstMalformed_eq_none {len pos : ℕ} {recs : List Frame}
    (h : firstMalformed len pos recs = none) : ∀ r ∈ recs, r.length = len := by
  induction recs generalizing pos with
  | nil => simp
  | cons r rs ih =>
    unfold firstMalformed at h
    split at h
    · next hr => exact List.forall_mem_cons.2 ⟨hr, ih h⟩
    · cases h

theorem supplied_of_validateCombine_eq_none {len : ℕ} {recs : List Frame} (h : validateCombine recs len = none) :
    Supplied len recs := by
  unfold validateCombine Config.COMBINE_MAX at h
  split at h
  · cases h
  · split at h
    · cases h
    · exact ⟨by omega, by omega, forall_length_of_firstMalformed_eq_none h⟩

theorem supplied_of_validateFull_eq_none {recs : List Frame} (h : validateFull recs = none) : Supplied 113 recs := by
  unfold validateFull at h
  split at h
  · cases h
  · next hv => exact supplied_of_validateCombine_eq_none hv

theorem length_commonEnvelope {recs : List Frame} (h : Supplied 113 recs) : (commonEnvelope recs).length = 80 := by
  obtain ⟨hne, -, hlen⟩ := h
  match recs, hne with
  | r :: _, _ => exact memRead_length (by simp [hlen r])

theorem length_keySharePart {share : Frame} (h : share.length = 113) : (keySharePart share).length = 33 :=
  memRead_length (by simp [h])

@[simp] theorem length_countField {α : Type} (l : List α) : (countField l).length = 2 := rfl

theorem length_putRecords (recs : List Frame) : (putRecords recs).length = (recs.map fun r => 1 + r.length).sum := by
  induction recs with
  | nil => rfl
  | cons r rs ih => simp +arith [ih]

/-- The table of R78: the body of every OK response has the length that goes with its command. -/
theorem exec_okBodyHasLength {i : Instr} (hw : wellFormed i = true) (s : State) :
    OkBodyHasLength (okBodyLength i) s (exec i s) := by
  cases i with
  | gfadd a b => exact okBodyHasLength_ret rfl rfl
  | gfmul a b => exact okBodyHasLength_ret rfl rfl
  | gfinv a =>
    simp only [exec, execGfinv]
    split
    · exact okBodyHasLength_raise _ rfl
    · exact okBodyHasLength_ret rfl rfl
  | peval x c =>
    simp only [exec, execPeval]
    split
    · exact okBodyHasLength_raise _ rfl
    · exact okBodyHasLength_ret rfl rfl
  | ksplit n k secret =>
    have hs := wellFormed_ksplit_iff.1 hw
    exact okBodyHasLength_splitCommand (m := 0) s (fun _ => rfl) (by rw [hs, okBodyLength])
  | lagr0 points =>
    simp only [exec, execLagr0]
    split
    · exact okBodyHasLength_raise _ rfl
    · split
      · exact okBodyHasLength_ret rfl rfl
      · exact okBodyHasLength_retDrawn rfl
  | kcomb recs =>
    simp only [exec, execKcomb]
    split
    · exact okBodyHasLength_raise _ rfl
    · exact okBodyHasLength_combineCommand _ [] s
  | valsplit n k =>
    simp only [exec, execValsplit]
    split
    · exact okBodyHasLength_raise _ rfl
    · exact okBodyHasLength_ret rfl rfl
  | valcomb kind recs =>
    simp only [exec, execValcomb]
    split
    · exact okBodyHasLength_raise _ rfl
    · exact okBodyHasLength_ret rfl rfl
  | dedup recs =>
    refine okBodyHasLength_ret ?_ rfl
    rw [List.length_append, length_countField, length_putRecords, okBodyLength]
  | kframe index payload =>
    have hp := wellFormed_kframe_iff.1 hw
    simp only [exec, execKframe]
    split
    · exact okBodyHasLength_raise _ rfl
    · exact okBodyHasLength_ret (by simp [frameKeyShare, hp, okBodyLength]) rfl
  | kunframe share =>
    simp only [exec, execKunframe]
    split
    · next hs => exact okBodyHasLength_ret (by simp [memRead, hs, okBodyLength]) rfl
    · exact okBodyHasLength_raise _ rfl
  | fframe env keyShares =>
    obtain ⟨he, -, hk⟩ := wellFormed_fframe_iff.1 hw
    simp only [exec, execFframe]
    split
    · exact okBodyHasLength_raise _ rfl
    · refine okBodyHasLength_ret ?_ rfl
      rw [List.length_flatMap, sum_map_of_forall_eq (n := 113) fun ks h => by simp [frameFull, he, hk ks h], okBodyLength]
  | funframe recs =>
    simp only [exec, execFunframe]
    split
    · exact okBodyHasLength_raise _ rfl
    · next hv =>
      have hsup := supplied_of_validateFull_eq_none hv
      refine okBodyHasLength_ret ?_ rfl
      rw [List.length_append, List.length_append, length_countField, length_commonEnvelope hsup, List.length_flatMap,
        sum_map_of_forall_eq fun r h => length_keySharePart (hsup.2.2 r h), okBodyLength]
  | fsplit n k key env =>
    obtain ⟨hk, he⟩ := wellFormed_fsplit_iff.1 hw
    exact okBodyHasLength_splitCommand s (fun _ => List.length_append) (by rw [hk, he, okBodyLength])
  | fcomb recs =>
    simp only [exec, execFcomb]
    split
    · exact okBodyHasLength_raise _ rfl
    · next hv =>
      have h := okBodyHasLength_combineCommand (dedup (recs.map keySharePart)) (commonEnvelope recs) s
      rwa [length_commonEnvelope (supplied_of_validateFull_eq_none hv)] at h

/-- Settles O48: a ready command delivers a legal response and any other none, and the body of an OK one is as long as R78 says. -/
theorem responseHasTheStatusAndBodyOfItsCommand : Obligations.ResponseHasTheStatusAndBodyOfItsCommand := by
  refine ⟨fun i s t r h hrsp => ?_, fun i s t body hw h hrsp => exec_okBodyHasLength hw s t body h hrsp⟩
  by_cases hr : RandomReady i s
  · obtain ⟨r', hlegal, he⟩ := exec_of_randomReady hr
    rw [he] at h
    cases h
    obtain rfl : r' = r := by simpa using hrsp
    exact hlegal
  · rw [(exec_of_not_randomReady hr).2] at h
    cases h
    simp at hrsp

end Sys2Proof.Machine
end

section
/-! The field a `POLY` gives (40_field.md R101 to R103): the bytes are the quotient of the polynomials over GF(2) by the
polynomial of `POLY`, which Mathlib knows to be a field, and the field functions are that field's operations. -/

namespace Sys2Proof.Machine

open Polynomial

/-- The field of `POLY`: polynomials over GF(2) modulo the polynomial of `POLY`. -/
abbrev PolyField (p : ReductionPoly) : Type := AdjoinRoot (toPoly (polyBits p).toNat)

/-- The element of the field a byte stands for (R8, R30). -/
noncomputable def toField (p : ReductionPoly) (a : Byte) : PolyField p := AdjoinRoot.mk _ (toPoly a.toNat)

theorem monic_polyBits (p : ReductionPoly) : (toPoly (polyBits p).toNat).Monic := by
  have hp := leadingBit_polyBits p
  rw [Monic, leadingCoeff, natDegree_eq_of_degree_eq_some (degree_toPoly hp), coeff_toPoly, if_pos hp.testBit]

theorem mk_mod (p : ReductionPoly) (q : (ZMod 2)[X]) :
    AdjoinRoot.mk (toPoly (polyBits p).toNat) (q % toPoly (polyBits p).toNat) = AdjoinRoot.mk _ q := by
  conv_rhs => rw [← EuclideanDomain.mod_add_div q (toPoly (polyBits p).toNat)]
  rw [map_add, map_mul, AdjoinRoot.mk_self, zero_mul, add_zero]

theorem toField_injective (p : ReductionPoly) : Function.Injective (toField p) := fun a b h => by
  have hdvd : toPoly (polyBits p).toNat ∣ toPoly (a ^^^ b).toNat := by
    rw [BitVec.toNat_xor, toPoly_xor, ← CharTwo.sub_eq_add]
    exact AdjoinRoot.mk_eq_mk.1 h
  have hlt : (toPoly (a ^^^ b).toNat).degree < (toPoly (polyBits p).toNat).degree := by
    rw [degree_toPoly (leadingBit_polyBits p)]
    exact degree_toPoly_lt (a ^^^ b).isLt
  exact BitVec.xor_eq_zero_iff.1 ((toPoly_byte_eq_zero_iff _).1 (eq_zero_of_dvd_of_degree_lt hdvd hlt))

/-- A polynomial of degree below 8 is the polynomial of a byte. -/
theorem exists_toPoly_byte_eq {q : (ZMod 2)[X]} (hq : q.degree < (8 : ℕ)) : ∃ a : Byte, toPoly a.toNat = q := by
  by_cases h0 : q = 0
  · exact ⟨0x00#8, by rw [h0]; exact toPoly_zero⟩
  · obtain ⟨d, ⟨-, hd⟩, rfl⟩ := exists_toPoly_eq h0
    have hdeg : (toPoly d).natDegree < 8 := (natDegree_lt_iff_degree_lt h0).2 hq
    have hd8 : d < 2 ^ 8 := hd.trans_le (Nat.pow_le_pow_right Nat.two_pos hdeg)
    exact ⟨BitVec.ofNat 8 d, by rw [BitVec.toNat_ofNat, Nat.mod_eq_of_lt hd8]⟩

theorem toField_surjective (p : ReductionPoly) : Function.Surjective (toField p) := fun x => by
  obtain ⟨q, rfl⟩ := AdjoinRoot.mk_surjective x
  have hp := leadingBit_polyBits p
  have hdeg : (q % toPoly (polyBits p).toNat).degree < (8 : ℕ) :=
    degree_toPoly hp ▸ degree_mod_lt q hp.toPoly_ne_zero
  obtain ⟨a, ha⟩ := exists_toPoly_byte_eq hdeg
  exact ⟨a, by rw [toField, ha, mk_mod]⟩

@[simp] theorem toField_zero (p : ReductionPoly) : toField p 0x00#8 = 0 := by
  rw [toField, (toPoly_byte_eq_zero_iff _).2 rfl, map_zero]

@[simp] theorem toField_one (p : ReductionPoly) : toField p 0x01#8 = 1 := by
  have h1 : toPoly (0x01#8 : Byte).toNat = 1 := by simp [toPoly]
  rw [toField, h1, map_one]

@[simp] theorem toField_xor (p : ReductionPoly) (a b : Byte) : toField p (a ^^^ b) = toField p a + toField p b := by
  rw [toField, BitVec.toNat_xor, toPoly_xor, map_add, toField, toField]

@[simp] theorem toField_gfMul (p : ReductionPoly) (a b : Byte) :
    toField p (gfMul p a b) = toField p a * toField p b := by
  rw [toField, toPoly_gfMul, mk_mod, map_mul, toField, toField]

theorem toField_eq_zero_iff (p : ReductionPoly) (a : Byte) : toField p a = 0 ↔ a = 0x00#8 := by
  rw [← toField_zero p, (toField_injective p).eq_iff]

@[simp] theorem toField_gfPow (p : ReductionPoly) (a : Byte) (j : ℕ) : toField p (gfPow p a j) = toField p a ^ j := by
  induction j with
  | zero => rw [gfPow, toField_one, pow_zero]
  | succ j ih => rw [gfPow, toField_gfMul, ih, pow_succ]

/-! The laws of R103, read back from the field. -/

theorem gfMul_comm (p : ReductionPoly) (a b : Byte) : gfMul p a b = gfMul p b a :=
  toField_injective p (by simp [mul_comm])

theorem gfMul_assoc (p : ReductionPoly) (a b c : Byte) : gfMul p (gfMul p a b) c = gfMul p a (gfMul p b c) :=
  toField_injective p (by simp [mul_assoc])

@[simp] theorem gfMul_one (p : ReductionPoly) (a : Byte) : gfMul p a 0x01#8 = a := toField_injective p (by simp)

@[simp] theorem one_gfMul (p : ReductionPoly) (a : Byte) : gfMul p 0x01#8 a = a := (gfMul_comm p _ a).trans (gfMul_one p a)

@[simp] theorem gfMul_zero (p : ReductionPoly) (a : Byte) : gfMul p a 0x00#8 = 0x00#8 := (gfMul_eq_zero_iff p a _).2 (.inr rfl)

@[simp] theorem zero_gfMul (p : ReductionPoly) (a : Byte) : gfMul p 0x00#8 a = 0x00#8 := (gfMul_eq_zero_iff p _ a).2 (.inl rfl)

/-- `gf_inv` is what R102 says: its value at `a`, if it has one, is the byte whose product with `a` is `0x01`. -/
theorem gfInv_eq_some_iff (p : ReductionPoly) (a b : Byte) : gfInv p a = some b ↔ gfMul p a b = 0x01#8 := by
  have mul_of_some {c : Byte} (h : gfInv p a = some c) : gfMul p a c = 0x01#8 := by
    simpa using List.find?_some h
  refine ⟨mul_of_some, fun h => ?_⟩
  have ha : a ≠ 0x00#8 := by
    rintro rfl
    rw [zero_gfMul] at h
    cases h
  obtain ⟨c, hc⟩ := Option.isSome_iff_exists.1 (gfInv_isSome p ha)
  rw [hc, gfMul_left_injective p ha ((mul_of_some hc).trans h.symm)]

theorem gfInv_zero (p : ReductionPoly) : gfInv p 0x00#8 = none :=
  Option.eq_none_iff_forall_ne_some.2 fun b h => by
    rw [gfInv_eq_some_iff, zero_gfMul] at h
    cases h

theorem gfInv_one (p : ReductionPoly) : gfInv p 0x01#8 = some 0x01#8 := (gfInv_eq_some_iff p _ _).2 (gfMul_one p _)

/-- The inverse of the inverse is the byte itself (R103, R106). -/
theorem gfInv_symm {p : ReductionPoly} {a b : Byte} (h : gfInv p a = some b) : gfInv p b = some a := by
  rw [gfInv_eq_some_iff] at h ⊢
  rw [gfMul_comm, h]

theorem exists_gfInv_eq_some (p : ReductionPoly) {a : Byte} (ha : a ≠ 0x00#8) :
    ∃ b, gfInv p a = some b ∧ b ≠ 0x00#8 := by
  obtain ⟨b, hb⟩ := Option.isSome_iff_exists.1 (gfInv_isSome p ha)
  refine ⟨b, hb, ?_⟩
  rintro rfl
  have h0 := gfInv_symm hb
  rw [gfInv_zero] at h0
  cases h0

/-- Settles O3: multiplication by a non-zero byte is injective, so it reaches `0x01` exactly once. -/
theorem inverseIsUniqueAndPartial : Obligations.InverseIsUniqueAndPartial := by
  refine fun p => ⟨gfInv_zero p, fun a ha => ?_⟩
  obtain ⟨b, hb, hb0⟩ := exists_gfInv_eq_some p ha
  have hab := (gfInv_eq_some_iff p a b).1 hb
  exact ⟨b, hb, hb0, hab, fun c hc => gfMul_left_injective p ha (hc.trans hab.symm)⟩

/-- Settles O4: the laws of addition are those of exclusive or, the others those of the field. -/
theorem fieldLawsHoldForEveryPoly : Obligations.FieldLawsHoldForEveryPoly := by
  refine fun p a b c => ⟨BitVec.xor_comm a b, BitVec.xor_assoc a b c, gfMul_comm p a b, gfMul_assoc p a b c,
    gfMul_xor p a b c, BitVec.xor_zero, BitVec.xor_self, gfMul_one p a, gfMul_zero p a, (gfMul_eq_zero_iff p a b).1,
    fun ha => ?_, gfInv_one p⟩
  obtain ⟨d, hd, -⟩ := exists_gfInv_eq_some p ha
  exact ⟨d, hd, (gfInv_eq_some_iff p a d).1 hd, gfInv_symm hd⟩

end Sys2Proof.Machine
end

section
/-! The product as polynomial arithmetic (40_field.md R101), and what of it depends on `POLY`. -/

namespace Sys2Proof.Machine

open Polynomial

theorem toPolynomial_eq_toPoly {w : ℕ} (v : BitVec w) : toPolynomial v = toPoly v.toNat := (toPoly_eq_sum v.isLt).symm

/-- Step 2 of R101 leaves a byte. -/
theorem reduceProduct_lt (p : ReductionPoly) (v : BitVec 15) : (reduceProduct (polyBits p) v).toNat < 2 ^ 8 := by
  rw [toNat_reduceProduct]
  exact foldl_divideBit_lt (m := 8) (n := 7) (leadingBit_polyBits p) v.isLt

theorem toPoly_gfMul_eq_mod (p : ReductionPoly) (a b : Byte) :
    toPoly (gfMul p a b).toNat = toPoly (carrylessProduct a b).toNat % toPoly (polyBits p).toNat := by
  rw [toPoly_gfMul, toPoly_carrylessProduct]

/-- A carry-less product that is a byte is its own remainder. -/
theorem gfMul_of_carrylessProduct_lt (p : ReductionPoly) {a b : Byte} (h : (carrylessProduct a b).toNat < 256) :
    gfMul p a b = (carrylessProduct a b).setWidth 8 := by
  have hp := leadingBit_polyBits p
  refine BitVec.eq_of_toNat_eq (toPoly_injective ?_)
  rw [BitVec.toNat_setWidth, Nat.mod_eq_of_lt h, toPoly_gfMul_eq_mod, mod_eq_self_iff hp.toPoly_ne_zero,
    degree_toPoly hp]
  exact degree_toPoly_lt (n := 8) h

/-- Two values of `POLY` have no common factor. -/
theorem isCoprime_polyBits {p q : ReductionPoly} (h : p ≠ q) :
    IsCoprime (toPoly (polyBits p).toNat) (toPoly (polyBits q).toNat) := by
  refine (irreducible_polyBits p).coprime_iff_not_dvd.2 fun hdvd => h ?_
  have hassoc := (irreducible_polyBits p).associated_of_dvd (irreducible_polyBits q) hdvd
  have heq := eq_of_monic_of_associated (monic_polyBits p) (monic_polyBits q) hassoc
  exact polyBits_injective (BitVec.eq_of_toNat_eq (toPoly_injective heq))

theorem polyBits_dvd_sub_gfMul (p : ReductionPoly) (a b : Byte) :
    toPoly (polyBits p).toNat ∣ toPoly (carrylessProduct a b).toNat - toPoly (gfMul p a b).toNat := by
  rw [← AdjoinRoot.mk_eq_mk, toPoly_gfMul_eq_mod, mk_mod]

/-- A remainder common to two values of `POLY` is one modulo their product, which is of degree 16; so the carry-less
product is that remainder, a byte. -/
theorem carrylessProduct_lt_of_gfMul_eq {p q : ReductionPoly} (hpq : p ≠ q) {a b : Byte}
    (h : gfMul p a b = gfMul q a b) : (carrylessProduct a b).toNat < 256 := by
  have hdvd := (isCoprime_polyBits hpq).mul_dvd (polyBits_dvd_sub_gfMul p a b) (h ▸ polyBits_dvd_sub_gfMul q a b)
  have hdeg : (toPoly (carrylessProduct a b).toNat - toPoly (gfMul p a b).toNat).degree <
      (toPoly (polyBits p).toNat * toPoly (polyBits q).toNat).degree := by
    have hr : (gfMul p a b).toNat < 2 ^ 15 := (gfMul p a b).isLt.trans (by decide)
    rw [degree_mul, degree_toPoly (leadingBit_polyBits p), degree_toPoly (leadingBit_polyBits q)]
    calc _ ≤ _ := degree_sub_le _ _
      _ < (15 : ℕ) := max_lt (degree_toPoly_lt (carrylessProduct a b).isLt) (degree_toPoly_lt hr)
      _ < _ := by decide
  have heq := toPoly_injective (sub_eq_zero.1 (eq_zero_of_dvd_of_degree_lt hdvd hdeg))
  exact heq ▸ (gfMul p a b).isLt

/-- Settles O2; any two values of `POLY` tell a product with a bit above bit 7 apart. -/
theorem productIsThePolynomialRemainder : Obligations.ProductIsThePolynomialRemainder := by
  refine ⟨fun a b => ?_, fun p v i hi => ?_, fun p a b => ?_, fun a b h p => gfMul_of_carrylessProduct_lt p h,
    fun a b h => ⟨.p11B, .p11D, fun heq => ?_⟩⟩
  · simp only [toPolynomial_eq_toPoly, toPoly_carrylessProduct]
  · exact Nat.testBit_lt_two_pow ((reduceProduct_lt p v).trans_le (Nat.pow_le_pow_right Nat.two_pos hi))
  · simp only [toPolynomial_eq_toPoly, toPoly_gfMul, modByMonic_eq_mod _ (monic_polyBits p)]
  · exact absurd (carrylessProduct_lt_of_gfMul_eq (by decide) heq) (by omega)

end Sys2Proof.Machine
end

section
/-! The two other forms of R107: the shift-and-add product, and the inverse as the 254th power. -/

namespace Sys2Proof.Machine

open Polynomial

/-- What one round of R107 (a) does to its second byte: multiply by `t` modulo `POLY`. -/
def timesT (p : ReductionPoly) (a : Byte) : Byte :=
  if a.getLsbD 7 then (a <<< 1) ^^^ (polyBits p).setWidth 8 else a <<< 1

theorem shiftAddRound_eq (p : ReductionPoly) (r a b : Byte) :
    shiftAddRound p (r, a, b) = (if b.getLsbD 0 then r ^^^ a else r, timesT p a, b >>> 1) := rfl

/-- Multiplying by `t` is one round of step 2 of R101, at bit 8. -/
theorem timesT_eq_reduceBit (p : ReductionPoly) (a : Byte) :
    timesT p a = (reduceBit (polyBits p) (a.setWidth 15 <<< 1) 8).setWidth 8 := by
  have hshift : ((a.setWidth 15 <<< 1 : BitVec 15)).setWidth 8 = a <<< 1 := by
    refine BitVec.eq_of_getLsbD_eq fun i hi => ?_
    simp [hi]
  have hbit : (a.setWidth 15 <<< 1 : BitVec 15).getLsbD 8 = a.getLsbD 7 := by simp
  unfold timesT reduceBit
  rw [hbit]
  split
  · rw [BitVec.setWidth_xor, hshift, Nat.sub_self, BitVec.shiftLeft_zero, BitVec.setWidth_setWidth_of_le _ (by decide)]
  · exact hshift.symm

theorem toNat_timesT (p : ReductionPoly) (a : Byte) :
    (timesT p a).toNat = divideBit (polyBits p).toNat 8 (a.toNat <<< 1) 8 := by
  have ha : a.toNat <<< 1 < 2 ^ 9 := by
    rw [Nat.shiftLeft_eq]
    exact Nat.mul_lt_mul_of_pos_right a.isLt Nat.two_pos
  have hlt : divideBit (polyBits p).toNat 8 (a.toNat <<< 1) 8 < 2 ^ 8 := divideBit_lt (leadingBit_polyBits p) ha
  rw [timesT_eq_reduceBit, BitVec.toNat_setWidth, toNat_reduceBit _ _ (by decide),
    toNat_setWidth_shiftLeft a (by decide), Nat.mod_eq_of_lt hlt]

theorem toField_timesT (p : ReductionPoly) (a : Byte) : toField p (timesT p a) = toField p a * AdjoinRoot.root _ := by
  rw [toField, toNat_timesT, ← mk_mod, toPoly_divideBit_mod, mk_mod, toPoly_shiftLeft, pow_one, map_mul,
    AdjoinRoot.mk_X, toField]

/-- The byte `0x02` is `t`. -/
theorem gfMul_two (p : ReductionPoly) (a : Byte) : gfMul p 0x02#8 a = timesT p a := by
  refine toField_injective p ?_
  have h2 : toField p 0x02#8 = AdjoinRoot.root _ := by
    rw [show (0x02#8 : Byte) = timesT p 0x01#8 from rfl, toField_timesT, toField_one, one_mul]
  rw [toField_gfMul, h2, toField_timesT, mul_comm]

/-- A byte is its lowest bit plus `t` times the rest. -/
theorem toPoly_eq_bit_add_shiftRight (v : ℕ) :
    toPoly v = (if v.testBit 0 then (1 : (ZMod 2)[X]) else 0) + toPoly (v >>> 1) * X := by
  ext j
  cases j with
  | zero => cases h : v.testBit 0 <;> simp [coeff_toPoly, h]
  | succ j => cases h : v.testBit 0 <;> simp [coeff_toPoly, coeff_one, add_comm]

theorem toField_eq_bit_add_shiftRight (p : ReductionPoly) (b : Byte) :
    toField p b = (if b.getLsbD 0 then (1 : PolyField p) else 0) + toField p (b >>> 1) * AdjoinRoot.root _ := by
  rw [toField, toPoly_eq_bit_add_shiftRight b.toNat, map_add, map_mul, AdjoinRoot.mk_X, toField, BitVec.toNat_ushiftRight,
    apply_ite (AdjoinRoot.mk _), map_one, map_zero]
  rfl

/-- What the rounds of R107 (a) keep: `r + a * b`. -/
noncomputable def shiftAddValue (p : ReductionPoly) (x : Byte × Byte × Byte) : PolyField p :=
  toField p x.1 + toField p x.2.1 * toField p x.2.2

theorem shiftAddValue_round (p : ReductionPoly) (x : Byte × Byte × Byte) :
    shiftAddValue p (shiftAddRound p x) = shiftAddValue p x := by
  obtain ⟨r, a, b⟩ := x
  rw [shiftAddRound_eq, shiftAddValue, shiftAddValue, toField_timesT, toField_eq_bit_add_shiftRight p b]
  cases b.getLsbD 0
  · simp only [Bool.false_eq_true, if_false, zero_add]
    ring
  · simp only [if_true, toField_xor]
    ring

theorem shiftAddValue_iterate (p : ReductionPoly) (x : Byte × Byte × Byte) (n : ℕ) :
    shiftAddValue p ((shiftAddRound p)^[n] x) = shiftAddValue p x ∧
      ((shiftAddRound p)^[n] x).2.2 = x.2.2 >>> n := by
  induction n with
  | zero => exact ⟨rfl, (BitVec.ushiftRight_zero _).symm⟩
  | succ n ih =>
    obtain ⟨hvalue, hb⟩ := ih
    rw [Function.iterate_succ_apply', shiftAddValue_round, BitVec.shiftRight_add, ← hb]
    exact ⟨hvalue, rfl⟩

/-- After eight rounds `b` is used up, and `r` is the product (R107). -/
theorem gfMulShiftAdd_eq_gfMul (p : ReductionPoly) (a b : Byte) : gfMulShiftAdd p a b = gfMul p a b := by
  obtain ⟨hvalue, hb⟩ := shiftAddValue_iterate p (0x00#8, a, b) 8
  have hb0 : b >>> 8 = 0x00#8 := BitVec.ushiftRight_eq_zero le_rfl
  refine toField_injective p ?_
  rw [shiftAddValue, hb, hb0] at hvalue
  simpa [shiftAddValue, gfMulShiftAdd] using hvalue

/-- The field has 256 elements, so the 255th power of a non-zero one is 1. -/
theorem toField_pow_255 (p : ReductionPoly) {a : Byte} (ha : a ≠ 0x00#8) : toField p a ^ 255 = 1 := by
  have := Fact.mk (irreducible_polyBits p)
  have hbij : Function.Bijective (toField p) := ⟨toField_injective p, toField_surjective p⟩
  have := Fintype.ofBijective _ hbij
  have hcard : Fintype.card (PolyField p) - 1 = 255 := by
    simp [← Fintype.card_of_bijective hbij, ← FinEnum.card_eq_fintypeCard]
  have hpow := FiniteField.pow_card_sub_one_eq_one (toField p a) ((toField_eq_zero_iff p a).not.2 ha)
  rwa [hcard] at hpow

theorem gfInv_eq_gfPow (p : ReductionPoly) {a : Byte} (ha : a ≠ 0x00#8) : gfInv p a = some (gfPow p a 254) := by
  refine (gfInv_eq_some_iff p a _).2 (toField_injective p ?_)
  rw [toField_gfMul, toField_gfPow, ← pow_succ', toField_pow_255 p ha, toField_one]

/-- Settles O7, by the invariant `shiftAddValue` of the rounds and by Fermat in the field of 256 elements. -/
theorem otherFormsOfTheFieldFunctionsAgree : Obligations.OtherFormsOfTheFieldFunctionsAgree :=
  ⟨gfMulShiftAdd_eq_gfMul, fun p _ ha => gfInv_eq_gfPow p ha, fun p => gfMul_zero p _⟩

end Sys2Proof.Machine
end

section
/-! The three commands of the field unit (40_field.md R104 to R106) and their frames (30_encoding.md R71, R76). -/

namespace Sys2Proof.Machine

/-- An opcode whose every frame has the same length leaves each other length a BadFrame (R76). -/
theorem wrongLengthIsBadFrame {op : Byte} {o : Opcode} {len : ℕ} (ho : opcodeOf op = some o)
    (hlen : ∀ g : ℕ → Byte, opcodeOf (g 0) = some o → impliedLength g = len) : WrongLengthIsBadFrame op len := by
  intro f hf hne
  obtain ⟨hiff, hor⟩ := frameLengthDecidesWellFormedness.2 f op o hf ho
  refine hor.resolve_left fun hok => hne ?_
  obtain ⟨bs, rfl⟩ := List.head?_eq_some_iff.1 hf
  exact (hiff.1 hok).1.trans (hlen _ ho)

theorem exec_gfadd (a b : Byte) (s : State) : exec (.gfadd a b) s = .next (answered [0x00#8, gfAdd a b] s) := ret_eq _ s

theorem exec_gfmul (a b : Byte) (s : State) :
    exec (.gfmul a b) s = .next (answered [0x00#8, gfMul s.config.poly a b] s) := ret_eq _ s

theorem exec_gfinv_of_some {a b : Byte} {s : State} (h : gfInv s.config.poly a = some b) :
    exec (.gfinv a) s = .next (answered [0x00#8, b] s) := by
  simp only [exec, execGfinv, h, ret_eq]

theorem exec_gfinv_of_none {a : Byte} {s : State} (h : gfInv s.config.poly a = none) :
    exec (.gfinv a) s = .next (answered [0x10#8] s) := by
  simp only [exec, execGfinv, h, raise_eq]
  rfl

/-- Settles O1, from what GFADD answers and the one length of its frames. -/
theorem gfaddAnswersTheXor : Obligations.GfaddAnswersTheXor :=
  ⟨fun _ _ => ⟨rfl, BitVec.xor_self⟩, exec_gfadd, fun _ _ => ⟨rfl, rfl⟩,
    wrongLengthIsBadFrame (o := .gfadd) rfl fun g h => by simp only [impliedLength, h]⟩

/-- Settles O5: the corner cases are field laws, and `0x02` times `0x80` is `t` times `t^7`. -/
theorem gfmulAnswersTheProduct : Obligations.GfmulAnswersTheProduct := by
  refine ⟨exec_gfmul, fun p a b => ⟨zero_gfMul p b, gfMul_zero p a, one_gfMul p b, gfMul_one p a, gfMul_comm p a b,
    fun ha hb h => ?_⟩, fun p => ?_, fun _ _ => ⟨rfl, rfl⟩,
    wrongLengthIsBadFrame (o := .gfmul) rfl fun g h => by simp only [impliedLength, h]⟩
  · exact ((gfMul_eq_zero_iff p a b).1 h).elim ha hb
  · rw [gfMul_two]
    exact BitVec.zero_xor

/-- Settles O6: GFINV answers as `gf_inv` has a value or none. -/
theorem gfinvAnswersTheInverseOrInvZero : Obligations.GfinvAnswersTheInverseOrInvZero := by
  refine ⟨fun s => exec_gfinv_of_none (gfInv_zero _), fun a s ha => ?_, fun s => exec_gfinv_of_some (gfInv_one _),
    fun _ => ⟨rfl, rfl⟩, wrongLengthIsBadFrame (o := .gfinv) rfl fun g h => by simp only [impliedLength, h]⟩
  obtain ⟨b, hb, hb0⟩ := exists_gfInv_eq_some s.config.poly ha
  exact ⟨b, hb0, (gfInv_eq_some_iff _ a b).1 hb, exec_gfinv_of_some hb, exec_gfinv_of_some (gfInv_symm hb)⟩

end Sys2Proof.Machine
end

section
/-! The value of a polynomial (41_polyeval.md R120): Horner's scheme and the sum of the powers. -/

namespace Sys2Proof.Machine

@[simp] theorem gfAdd_zero (a : Byte) : gfAdd a 0x00#8 = a := BitVec.xor_zero

@[simp] theorem zero_gfAdd (a : Byte) : gfAdd 0x00#8 a = a := BitVec.zero_xor

theorem gfAdd_comm (a b : Byte) : gfAdd a b = gfAdd b a := BitVec.xor_comm a b

theorem gfAdd_gfMul (p : ReductionPoly) (a b c : Byte) :
    gfMul p (gfAdd a b) c = gfAdd (gfMul p a c) (gfMul p b c) := by
  simp only [gfMul_comm p _ c]
  exact gfMul_xor p c a b

@[simp] theorem gfSum_nil : gfSum [] = 0x00#8 := rfl

@[simp] theorem gfSum_cons (a : Byte) (l : List Byte) : gfSum (a :: l) = gfAdd a (gfSum l) := rfl

theorem gfSum_map_gfMul (p : ReductionPoly) (x : Byte) (l : List Byte) :
    gfSum (l.map fun a => gfMul p a x) = gfMul p (gfSum l) x := by
  induction l with
  | nil => simp
  | cons a l ih => rw [List.map_cons, gfSum_cons, ih, gfSum_cons, gfAdd_gfMul]

@[simp] theorem polyEval_nil (p : ReductionPoly) (x : Byte) : polyEval p [] x = 0x00#8 := rfl

/-- One round of Horner's scheme. -/
theorem polyEval_cons (p : ReductionPoly) (c0 : Byte) (c : List Byte) (x : Byte) :
    polyEval p (c0 :: c) x = gfAdd (gfMul p (polyEval p c x) x) c0 := rfl

@[simp] theorem polyEval_singleton (p : ReductionPoly) (c0 x : Byte) : polyEval p [c0] x = c0 := by
  simp [polyEval_cons]

theorem polyEval_cons_zero (p : ReductionPoly) (c0 : Byte) (c : List Byte) : polyEval p (c0 :: c) 0x00#8 = c0 := by
  simp [polyEval_cons]

theorem polyEval_one (p : ReductionPoly) (c : List Byte) : polyEval p c 0x01#8 = gfSum c := by
  induction c with
  | nil => rfl
  | cons c0 c ih => rw [polyEval_cons, ih, gfMul_one, gfSum_cons, gfAdd_comm]

/-- A zero coefficient at the highest power changes nothing (R121). -/
theorem polyEval_append_zero (p : ReductionPoly) (c : List Byte) (x : Byte) :
    polyEval p (c ++ [0x00#8]) x = polyEval p c x := by
  induction c with
  | nil => simp
  | cons c0 c ih => rw [List.cons_append, polyEval_cons, ih, polyEval_cons]

/-- The sum of the powers satisfies the recursion of Horner's scheme: `x` can be factored out of every term but the first. -/
theorem powerSum_cons (p : ReductionPoly) (c0 : Byte) (c : List Byte) (x : Byte) :
    powerSum p (c0 :: c) x = gfAdd (gfMul p (powerSum p c x) x) c0 := by
  have shifted (q : Byte × ℕ) : gfMul p q.1 (gfPow p x (q.2 + 1)) = gfMul p (gfMul p q.1 (gfPow p x q.2)) x := by
    rw [gfPow, gfMul_assoc]
  calc powerSum p (c0 :: c) x
      = gfAdd (gfMul p c0 0x01#8) (gfSum ((c.zipIdx 1).map fun q => gfMul p q.1 (gfPow p x q.2))) := rfl
    _ = gfAdd c0 (gfSum ((c.zipIdx.map fun q => gfMul p q.1 (gfPow p x q.2)).map fun a => gfMul p a x)) := by
      rw [gfMul_one, List.zipIdx_succ, List.map_map, List.map_map]
      simp only [Function.comp_def, shifted]
    _ = gfAdd (gfMul p (powerSum p c x) x) c0 := by
      rw [gfSum_map_gfMul, gfAdd_comm]
      rfl

theorem polyEval_eq_powerSum (p : ReductionPoly) (c : List Byte) (x : Byte) : polyEval p c x = powerSum p c x := by
  induction c with
  | nil => rfl
  | cons c0 c ih => rw [polyEval_cons, ih, powerSum_cons]

/-- Settles O9: Horner's scheme and the sum of the powers obey one recursion over the coefficients. -/
theorem hornerGivesThePowerSum : Obligations.HornerGivesThePowerSum :=
  ⟨fun p c x _ => polyEval_eq_powerSum p c x, polyEval_cons_zero, polyEval_singleton, polyEval_one⟩

end Sys2Proof.Machine
end

section
/-! PEVAL and its frames (41_polyeval.md R121, 30_encoding.md R76). -/

namespace Sys2Proof.Machine

/-- A frame of another length than its own header implies is a BadFrame (R76). -/
theorem decode_badFrame_of_length_ne {op : Byte} {o : Opcode} {f : Frame} (ho : opcodeOf op = some o)
    (hf : f.head? = some op) (hlen : f.length ≠ impliedLength (byteAt f)) : decode f = .error .badFrame := by
  obtain ⟨hiff, hor⟩ := frameLengthDecidesWellFormedness.2 f op o hf ho
  exact hor.resolve_left fun hok => hlen (hiff.1 hok).1

theorem byteAt_of_getElem? {f : Frame} {i : ℕ} {b : Byte} (h : f[i]? = some b) : byteAt f i = b := by
  rw [byteAt, List.getD_eq_getElem?_getD, h, Option.getD_some]

theorem impliedLength_peval {f : Frame} (hf : f.head? = some 0x10#8) :
    impliedLength (byteAt f) = 3 + (byteAt f 1).toNat := by
  obtain ⟨bs, rfl⟩ := List.head?_eq_some_iff.1 hf
  rfl

theorem exec_peval_nil (x : Byte) (s : State) : exec (.peval x []) s = .next (answered [0x02#8] s) := raise_eq _ s

theorem exec_peval {c : List Byte} (hc : c ≠ []) (x : Byte) (s : State) :
    exec (.peval x c) s = .next (answered [0x00#8, polyEval s.config.poly c x] s) := by
  rw [exec, execPeval, if_neg (List.length_eq_zero_iff.not.2 hc), ret_eq]

/-- Settles O10: PEVAL answers the value of Horner's scheme, which is the sum of the powers. -/
theorem pevalAnswersThePolynomialValue : Obligations.PevalAnswersThePolynomialValue := by
  refine ⟨exec_peval_nil, fun x c s hc => ?_, fun x c s hc => ?_, fun x c hc => ⟨rfl, ?_⟩, fun f hf hlen => ?_⟩
  · rw [exec_peval hc, polyEval_eq_powerSum]
  · rw [exec_peval (List.append_ne_nil_of_left_ne_nil hc _), exec_peval hc, polyEval_append_zero]
  · exact decode_encode (wellFormed_peval_iff.2 hc)
  · refine decode_badFrame_of_length_ne (o := .peval) rfl hf ?_
    rw [impliedLength_peval hf]
    cases hk : f[1]? with
    | none =>
      have := List.getElem?_eq_none_iff.1 hk
      omega
    | some k => exact byteAt_of_getElem? hk ▸ hlen k hk

end Sys2Proof.Machine
end

section
/-! The split (41_polyeval.md R122, R123), and KSPLIT with its frames (R124). -/

namespace Sys2Proof.Machine

theorem memRead_eq_map_byteAt {f : Frame} {addr n : ℕ} (h : addr + n ≤ f.length) :
    memRead f addr n = (List.range n).map fun j => byteAt f (addr + j) := by
  refine List.ext_getElem (by simp [memRead_length h]) fun j hj _ => ?_
  rw [memRead_length h] at hj
  have hlt : addr + j < f.length := by omega
  simp [memRead, byteAt, hlt]

/-- With enough random bytes the coefficient lists are those of R123, lane by lane. -/
theorem laneCoefficients_eq {k : ℕ} {r secret : Frame} (hr : r.length = secret.length * (k - 1)) :
    laneCoefficients k r secret = (List.range secret.length).map (laneOf k r secret) := by
  refine List.ext_getElem (by simp [laneCoefficients]) fun b hb _ => ?_
  have hlt : b < secret.length := by simpa [laneCoefficients] using hb
  have hread : b * (k - 1) + (k - 1) ≤ r.length := by
    rw [hr, ← Nat.succ_mul]
    exact Nat.mul_le_mul_right _ hlt
  simp [laneCoefficients, laneOf, memRead_eq_map_byteAt hread, byteAt, hlt]

theorem getElem?_split (p : ReductionPoly) (secret r : Frame) {n i : ℕ} (k : ℕ) (hi : i < n) :
    (split p secret n k r)[i]? =
      some (byteOf (i + 1) :: (laneCoefficients k r secret).map fun c => polyEval p c (byteOf (i + 1))) := by
  simp [split, hi]

/-- Settles O11: each lane's coefficient list is that of R123, and its value is the sum of the powers. -/
theorem splitEvaluatesEveryLaneAtEveryIndex : Obligations.SplitEvaluatesEveryLaneAtEveryIndex := by
  intro p secret n k r hs _ hr
  refine ⟨length_split p secret r n k, fun i hi => ?_⟩
  rw [getElem?_split p secret r k hi, laneCoefficients_eq (hs.symm ▸ hr), hs, List.map_map]
  simp only [Function.comp_def, polyEval_eq_powerSum]

/-- With threshold 1 every lane's polynomial is constant, so every share carries the secret (R124). -/
theorem split_threshold_one (p : ReductionPoly) (secret r : Frame) (n : ℕ) :
    split p secret n 1 r = (List.range n).map fun i => byteOf (i + 1) :: secret := by
  have constant : laneCoefficients 1 r secret = secret.map fun c0 => [c0] := by
    rw [← List.zipIdx_map_fst 0 secret, laneCoefficients, List.map_map]
    simp [memRead, Function.comp_def]
  simp [split, constant, Function.comp_def]

/-- The index bytes of the shares differ (R122). -/
theorem nodup_split (p : ReductionPoly) (secret r : Frame) {n : ℕ} (k : ℕ) (hn : n ≤ 255) :
    (split p secret n k r).Nodup := by
  refine List.Nodup.map_on (fun i hi j hj h => ?_) List.nodup_range
  rw [List.mem_range] at hi hj
  have hindex := congrArg BitVec.toNat (List.head_eq_of_cons_eq h)
  rw [toNat_byteOf (by omega), toNat_byteOf (by omega)] at hindex
  exact Nat.succ_injective hindex

theorem validateSplit_invalidCount {n : U16} (k : U16) (h : n.toNat = 0 ∨ 255 < n.toNat) :
    validateSplit n k = some .invalidCount :=
  if_pos (h.imp_left Nat.lt_one_iff.2)

theorem validateSplit_invalidThreshold {n k : U16} (h1 : 1 ≤ n.toNat) (h255 : n.toNat ≤ 255)
    (h : k.toNat = 0 ∨ n.toNat < k.toNat) : validateSplit n k = some .invalidThreshold := by
  have hn : ¬ (n.toNat < 1 ∨ Config.N_MAX < n.toNat) := not_or.2 ⟨h1.not_gt, h255.not_gt⟩
  rw [validateSplit, if_neg hn, if_pos (h.imp_left Nat.lt_one_iff.2)]

section
variable {n k : U16} (secret : Frame) (frame : Frame → Frame)

theorem splitCommand_of_invalid {e : Error} (h : validateSplit n k = some e) (s : State) :
    splitCommand n k secret frame s = raise e s := by
  simp only [splitCommand, h]

/-- A valid split whose random bytes are there answers the framed shares (R124, R185). -/
theorem splitCommand_of_answered (hv : ValidParams n.toNat k.toNat) {s t : State} {r : Frame}
    (h : splitRandom k.toNat s = .answered r t) : splitCommand n k secret frame s =
      .next (answered (0x00#8 :: (split s.config.poly secret n.toNat k.toNat r).flatMap frame) t) := by
  simp only [splitCommand, (validateSplit_eq_none_iff n k).2 hv, h, ret_eq]

end

/-- With threshold 1 no random byte is asked for (R44). -/
theorem splitRandom_one (s : State) : splitRandom 1 s = .answered [] s := rfl

theorem splitRandom_bytes {k : ℕ} (hk : 2 ≤ k) {s : State} {r : Frame} {rest : List RngAnswer}
    (hs : s.rng = .bytes r :: rest) (hr : r.length = 32 * (k - 1)) :
    splitRandom k s = .answered r (afterAnswer rest s) := by
  rw [splitRandom, if_neg (by omega), rngRead_bytes hs hr]

/-- Settles O12, by the outcomes of the parameter check and of the request of the random port. -/
theorem ksplitAnswersInEveryCase : Obligations.KsplitAnswersInEveryCase := by
  refine ⟨fun n k secret s _ => ⟨fun hn => ?_, fun h1 h255 hk => ?_, fun hv hk => ?_,
    fun hv hk rest hs => (isSplit_ksplit n k secret).exec_fail hv hk hs, fun hv hk r rest hs hr => ?_⟩,
    fun p secret r n k ⟨_, _, hn⟩ => nodup_split p secret r k hn, fun n k secret hs => ⟨rfl, ?_⟩,
    wrongLengthIsBadFrame (o := .ksplit) rfl fun g h => by simp only [impliedLength, h]⟩
  · exact (splitCommand_of_invalid secret id (validateSplit_invalidCount k hn) s).trans (raise_eq _ s)
  · exact (splitCommand_of_invalid secret id (validateSplit_invalidThreshold h1 h255 hk) s).trans (raise_eq _ s)
  · refine (splitCommand_of_answered secret id hv (by rw [hk, splitRandom_one])).trans ?_
    rw [hk, split_threshold_one, List.flatMap_id, List.flatMap_def]
  · rw [← List.flatMap_id]
    exact splitCommand_of_answered secret id hv (splitRandom_bytes hk hs hr)
  · exact decode_encode (wellFormed_ksplit_iff.2 hs)

end Sys2Proof.Machine
end

section
/-! Coefficient lists as polynomials over the field of `POLY` (41_polyeval.md R120): Horner's scheme is evaluation, and every
polynomial of degree below `n` is that of a list of `n` bytes. -/

namespace Sys2Proof.Machine

open Polynomial

theorem toField_gfAdd (p : ReductionPoly) (a b : Byte) : toField p (gfAdd a b) = toField p a + toField p b :=
  toField_xor p a b

/-- The polynomial whose coefficient of `X^j` is `c[j]`. -/
noncomputable def coeffPoly (p : ReductionPoly) : List Byte → (PolyField p)[X]
  | [] => 0
  | c0 :: c => coeffPoly p c * X + C (toField p c0)

theorem eval_coeffPoly (p : ReductionPoly) (c : List Byte) (x : Byte) :
    (coeffPoly p c).eval (toField p x) = toField p (polyEval p c x) := by
  induction c with
  | nil => simp [coeffPoly]
  | cons c0 c ih => simp [coeffPoly, ih, polyEval_cons, toField_gfAdd]

theorem coeff_coeffPoly_of_le (p : ReductionPoly) (c : List Byte) {j : ℕ} (h : c.length ≤ j) :
    (coeffPoly p c).coeff j = 0 := by
  induction c generalizing j with
  | nil => rfl
  | cons c0 c ih =>
    obtain ⟨j, rfl⟩ : ∃ i, j = i + 1 := ⟨j - 1, by simp at h; omega⟩
    simp [coeffPoly, ih (Nat.le_of_succ_le_succ h)]

theorem degree_coeffPoly_lt (p : ReductionPoly) (c : List Byte) : (coeffPoly p c).degree < c.length :=
  (degree_lt_iff_coeff_zero _ _).2 fun _ h => coeff_coeffPoly_of_le p c h

theorem exists_coeffPoly_eq (p : ReductionPoly) {n : ℕ} {f : (PolyField p)[X]} (hf : f.degree < n) :
    ∃ c : List Byte, c.length = n ∧ coeffPoly p c = f := by
  induction n generalizing f with
  | zero => exact ⟨[], rfl, (degree_eq_bot.1 (Nat.WithBot.lt_zero_iff.1 hf)).symm⟩
  | succ n ih =>
    have hdiv : f.divX.degree < n := (degree_lt_iff_coeff_zero _ _).2 fun j hj => by
      rw [coeff_divX]
      exact (degree_lt_iff_coeff_zero _ _).1 hf (j + 1) (Nat.succ_le_succ hj)
    obtain ⟨c, hlen, hc⟩ := ih hdiv
    obtain ⟨c0, hc0⟩ := toField_surjective p (f.coeff 0)
    exact ⟨c0 :: c, congrArg (· + 1) hlen, by rw [coeffPoly, hc, hc0, divX_mul_X_add]⟩

end Sys2Proof.Machine
end

section
/-! The weights of the Lagrange engine in the field (42_lagrange.md R140, R141): each is the value at 0 of the point's basis
polynomial, so the weighted sum of the values of a polynomial of low degree is its value at 0. -/

namespace Sys2Proof.Machine

open Polynomial

theorem neg_toField (p : ReductionPoly) (a : Byte) : -toField p a = toField p a :=
  neg_eq_of_add_eq_zero_right (by rw [← toField_xor, BitVec.xor_self, toField_zero])

theorem toField_foldl_gfMul (p : ReductionPoly) (f : Byte → Byte) (l : List Byte) (acc : Byte) :
    toField p (l.foldl (fun acc x => gfMul p acc (f x)) acc) = toField p acc * (l.map fun x => toField p (f x)).prod := by
  induction l generalizing acc with
  | nil => simp
  | cons x l ih => simp [ih, mul_assoc]

theorem toField_foldl_gfAdd (p : ReductionPoly) (l : List Byte) (acc : Byte) :
    toField p (l.foldl gfAdd acc) = toField p acc + (l.map (toField p)).sum := by
  induction l generalizing acc with
  | nil => simp
  | cons x l ih => simp [ih, toField_gfAdd, add_assoc]

theorem toField_gfSum (p : ReductionPoly) (l : List Byte) : toField p (gfSum l) = (l.map (toField p)).sum := by
  induction l with
  | nil => simp
  | cons a l ih => simp [ih, toField_gfAdd]

theorem toField_weightedSum (p : ReductionPoly) (ys ws : List Byte) :
    toField p (weightedSum p ys ws) = (List.zipWith (· * ·) (ys.map (toField p)) (ws.map (toField p))).sum := by
  rw [weightedSum, toField_foldl_gfAdd, toField_zero, zero_add, List.map_zipWith, List.zipWith_map]
  simp only [toField_gfMul]

theorem map_eq_map_some_of_mapM_eq_some {α β : Type} {f : α → Option β} {l : List α} {ys : List β}
    (h : l.mapM f = some ys) : l.map f = ys.map some := by
  induction l generalizing ys with
  | nil =>
    cases h
    rfl
  | cons x l ih =>
    rw [List.mapM_cons] at h
    obtain ⟨y, hy, h⟩ := Option.bind_eq_some_iff.1 h
    obtain ⟨zs, hzs, h⟩ := Option.bind_eq_some_iff.1 h
    cases h
    rw [List.map_cons, List.map_cons, hy, ih hzs]

/-- The weights one by one (R141), for x-coordinates that differ. -/
theorem map_weight_of_weights {p : ReductionPoly} {xs ws : List Byte} (hn : xs.Nodup) (h : weights p xs = some ws) :
    (xs.map fun x => weight p x (xs.erase x)) = ws.map some := by
  rw [← map_eq_map_some_of_mapM_eq_some h]
  exact List.ext_getElem (by simp) fun j hj _ => by simp [hn.erase_getElem]

theorem length_weights {p : ReductionPoly} {xs ws : List Byte} (hn : xs.Nodup) (h : weights p xs = some ws) :
    ws.length = xs.length := by
  simpa using (congrArg List.length (map_weight_of_weights hn h)).symm

theorem getElem?_weights {p : ReductionPoly} {xs ws : List Byte} (hn : xs.Nodup) (h : weights p xs = some ws) {j : ℕ}
    (hj : j < xs.length) : ws[j]? = weight p xs[j] (xs.erase xs[j]) := by
  have hw : ws[j]?.map some = some (weight p xs[j] (xs.erase xs[j])) := by
    simpa [hj] using congrArg (·[j]?) (map_weight_of_weights hn h).symm
  obtain ⟨w, hw, heq⟩ := Option.map_eq_some_iff.1 hw
  rw [hw, heq]

section
variable {p : ReductionPoly} [Fact (Irreducible (toPoly (polyBits p).toNat))]

theorem toField_gfInv {a b : Byte} (h : gfInv p a = some b) : toField p b = (toField p a)⁻¹ := by
  refine eq_inv_of_mul_eq_one_right ?_
  rw [← toField_gfMul, (gfInv_eq_some_iff p a b).1 h, toField_one]

variable (p) in
/-- The closed form of a weight (R140), in the field. -/
noncomputable def fieldWeight (x : Byte) (others : List Byte) : PolyField p :=
  (others.map fun xi => toField p xi / (toField p xi + toField p x)).prod

theorem toField_weight {x w : Byte} {others : List Byte} (h : weight p x others = some w) :
    toField p w = fieldWeight p x others := by
  obtain ⟨d, hd, rfl⟩ := Option.map_eq_some_iff.1 h
  have hnum : toField p (weightNum p others) = (others.map (toField p)).prod :=
    (toField_foldl_gfMul p id others _).trans (by simp)
  have hden : toField p (weightDen p x others) = (others.map fun xi => toField p xi + toField p x).prod :=
    (toField_foldl_gfMul p (gfAdd · x) others _).trans (by simp [toField_gfAdd])
  rw [toField_gfMul, toField_gfInv hd, hnum, hden, ← div_eq_mul_inv]
  exact (Multiset.prod_map_div (m := (others : Multiset Byte))).symm

theorem toField_closedWeight {x w : Byte} {others : List Byte} (h : closedWeight p x others = some w) :
    toField p w = fieldWeight p x others := by
  induction others generalizing w with
  | nil =>
    cases h
    exact toField_one p
  | cons xi others ih =>
    unfold closedWeight at h
    split at h
    · next d w' hd hw =>
      cases h
      rw [toField_gfMul, toField_gfMul, toField_gfInv hd, ih hw, toField_gfAdd, ← div_eq_mul_inv]
      rfl
    · cases h

/-- A weight is the value at 0 of the basis polynomial of its point. -/
theorem eval_zero_basis {xs : List Byte} (hn : xs.Nodup) (x : Byte) :
    (Lagrange.basis xs.toFinset (toField p) x).eval 0 = fieldWeight p x (xs.erase x) := by
  have hset : xs.toFinset.erase x = (xs.erase x).toFinset := by
    ext y
    simp [hn.mem_erase_iff]
  rw [Lagrange.basis, eval_prod, hset, List.prod_toFinset _ (hn.erase x), fieldWeight]
  congr! 3 with xi
  simp [Lagrange.basisDivisor, sub_eq_add_neg, neg_toField, div_eq_mul_inv, mul_comm, add_comm]

theorem map_toField_weights {xs ws : List Byte} (hn : xs.Nodup) (h : weights p xs = some ws) :
    ws.map (toField p) = xs.map fun x => (Lagrange.basis xs.toFinset (toField p) x).eval 0 := by
  have hmap := congrArg (List.map (Option.map (toField p))) (map_weight_of_weights hn h)
  refine List.map_injective_iff.2 (Option.some_injective _) ?_
  simp only [List.map_map] at hmap ⊢
  refine hmap.symm.trans (List.map_congr_left fun x _ => ?_)
  obtain ⟨w, hw⟩ := Option.isSome_iff_exists.1 (weight_isSome p (hn.not_mem_erase (a := x)))
  simp [hw, toField_weight hw, eval_zero_basis hn]

/-- Lagrange's formula at 0. -/
theorem toField_weightedSum_eq_eval_zero {xs ys ws : List Byte} (hn : xs.Nodup) (h : weights p xs = some ws)
    {f : (PolyField p)[X]} (hf : f.degree < xs.length)
    (hys : ys.map (toField p) = xs.map fun x => f.eval (toField p x)) : toField p (weightedSum p ys ws) = f.eval 0 := by
  have hf' : f.degree < xs.toFinset.card := by rwa [List.toFinset_card_of_nodup hn]
  rw [toField_weightedSum, hys, map_toField_weights hn h, List.zipWith_map, List.zipWith_self, ← List.sum_toFinset _ hn]
  conv_rhs => rw [Lagrange.eq_interpolate (toField_injective p).injOn hf', Lagrange.interpolate_apply, eval_finsetSum]
  simp only [eval_mul, eval_C]

end

theorem closedWeight_isSome (p : ReductionPoly) {x : Byte} {others : List Byte} (h : x ∉ others) :
    (closedWeight p x others).isSome := by
  induction others with
  | nil => rfl
  | cons xi others ih =>
    obtain ⟨hx, hothers⟩ := not_or.1 (List.mem_cons.not.1 h)
    have hdiff : gfAdd xi x ≠ 0x00#8 := fun h0 => hx (BitVec.xor_eq_zero_iff.1 h0).symm
    obtain ⟨d, hd⟩ := Option.isSome_iff_exists.1 (gfInv_isSome p hdiff)
    obtain ⟨w, hw⟩ := Option.isSome_iff_exists.1 (ih hothers)
    simp [closedWeight, hd, hw]

theorem closedWeight_eq_weight (p : ReductionPoly) {x : Byte} {others : List Byte} (h : x ∉ others) :
    closedWeight p x others = weight p x others := by
  have := Fact.mk (irreducible_polyBits p)
  obtain ⟨w, hw⟩ := Option.isSome_iff_exists.1 (weight_isSome p h)
  obtain ⟨w', hw'⟩ := Option.isSome_iff_exists.1 (closedWeight_isSome p h)
  rw [hw, hw', toField_injective p ((toField_closedWeight hw').trans (toField_weight hw).symm)]

/-- The basis polynomials add up to 1, and so do the weights (R141). -/
theorem gfSum_weights {p : ReductionPoly} {xs ws : List Byte} (hne : xs ≠ []) (hn : xs.Nodup) (h : weights p xs = some ws) :
    gfSum ws = 0x01#8 := by
  have := Fact.mk (irreducible_polyBits p)
  refine toField_injective p ?_
  rw [toField_gfSum, map_toField_weights hn h, ← List.sum_toFinset _ hn, ← eval_finsetSum,
    Lagrange.sum_basis (toField_injective p).injOn ((List.toFinset_nonempty_iff xs).2 hne), eval_one, toField_one]

/-- Settles O14: in the field both forms of a weight are the value at 0 of a basis polynomial, and these add up to 1. -/
theorem weightsHaveTheClosedForm : Obligations.WeightsHaveTheClosedForm := by
  rintro p xs ⟨hne, -, hn⟩
  obtain ⟨ws, hws⟩ := Option.isSome_iff_exists.1 (weights_isSome p hn)
  refine ⟨ws, hws, length_weights hn hws, gfSum_weights hne hn hws, fun j x hx => ?_⟩
  obtain ⟨hj, rfl⟩ := List.getElem?_eq_some_iff.1 hx
  rw [closedWeight_eq_weight p (not_mem_eraseIdx_of_nodup hn (List.mk_mem_zipIdx_iff_getElem?.2 hx)),
    getElem?_weights hn hws hj, hn.erase_getElem j hj]

end Sys2Proof.Machine
end

section
/-! Interpolation at 0 (42_lagrange.md R140, R142): the value of the one polynomial of degree below `m` through `m` points, and
LAGR0 with its frames. -/

namespace Sys2Proof.Machine

/-- The polynomial with the coefficients `c` goes through all points. -/
abbrev PassesThrough (p : ReductionPoly) (c : List Byte) (points : List (Byte × Byte)) : Prop :=
  ∀ q ∈ points, polyEval p c q.1 = q.2

/-- Every polynomial of degree below `m` through the `m` points has the value `lagrange0` at 0. -/
theorem lagrange0_eq_polyEval_zero {p : ReductionPoly} {points : List (Byte × Byte)} {c : List Byte}
    (hi : Interpolable (points.map Prod.fst)) (hlen : c.length ≤ points.length) (hc : PassesThrough p c points) :
    lagrange0 p points = some (polyEval p c 0x00#8) := by
  have := Fact.mk (irreducible_polyBits p)
  obtain ⟨ws, hws⟩ := Option.isSome_iff_exists.1 (weights_isSome p hi.2.2)
  have hdeg : (coeffPoly p c).degree < (points.map Prod.fst).length := by
    rw [List.length_map]
    exact (degree_coeffPoly_lt p c).trans_le (by exact_mod_cast hlen)
  have hvalues : (points.map Prod.snd).map (toField p) =
      (points.map Prod.fst).map fun x => (coeffPoly p c).eval (toField p x) := by
    rw [List.map_map, List.map_map]
    exact List.map_congr_left fun q hq => by simp [eval_coeffPoly, hc q hq]
  have hzero := toField_weightedSum_eq_eval_zero hi.2.2 hws hdeg hvalues
  rw [← toField_zero p, eval_coeffPoly] at hzero
  rw [lagrange0, if_pos hi, hws, Option.map_some, toField_injective p hzero]

theorem exists_passesThrough (p : ReductionPoly) {points : List (Byte × Byte)} (hn : (points.map Prod.fst).Nodup) :
    ∃ c : List Byte, c.length = points.length ∧ PassesThrough p c points := by
  have := Fact.mk (irreducible_polyBits p)
  have hinj : Set.InjOn (fun q : Byte × Byte => toField p q.1) points.toFinset := fun q hq q' hq' h =>
    List.inj_on_of_nodup_map hn (List.mem_toFinset.1 hq) (List.mem_toFinset.1 hq') (toField_injective p h)
  have hdeg := Lagrange.degree_interpolate_lt (fun q => toField p q.2) hinj
  rw [List.toFinset_card_of_nodup hn.of_map] at hdeg
  obtain ⟨c, hlen, hc⟩ := exists_coeffPoly_eq p hdeg
  refine ⟨c, hlen, fun q hq => toField_injective p ?_⟩
  rw [← eval_coeffPoly, hc]
  exact Lagrange.eval_interpolate_at_node _ hinj (List.mem_toFinset.2 hq)

theorem interpolable_of_perm {xs xs' : List Byte} (h : xs'.Perm xs) (hi : Interpolable xs) : Interpolable xs' := by
  obtain ⟨hne, h0, hn⟩ := hi
  exact ⟨fun h' => hne (by simpa [h'] using h), fun h0' => h0 (h.mem_iff.1 h0'), h.nodup_iff.2 hn⟩

theorem lagrange0_of_perm {p : ReductionPoly} {points points' : List (Byte × Byte)} (h : points'.Perm points)
    (hi : Interpolable (points.map Prod.fst)) : lagrange0 p points' = lagrange0 p points := by
  obtain ⟨c, hlen, hc⟩ := exists_passesThrough p hi.2.2
  rw [lagrange0_eq_polyEval_zero hi hlen.le hc]
  exact lagrange0_eq_polyEval_zero (interpolable_of_perm (h.map _) hi) (hlen.trans h.length_eq.symm).le
    fun q hq => hc q (h.mem_iff.1 hq)

/-- Points that share one `y` give it: a constant goes through them (R142). -/
theorem lagrange0_of_forall_snd_eq {p : ReductionPoly} {points : List (Byte × Byte)} {v : Byte}
    (hi : Interpolable (points.map Prod.fst)) (hv : ∀ q ∈ points, q.2 = v) : lagrange0 p points = some v := by
  have hlen : [v].length ≤ points.length := List.length_pos_iff.2 fun h => hi.1 (by simp [h])
  rw [lagrange0_eq_polyEval_zero hi hlen fun q hq => by rw [polyEval_singleton, hv q hq], polyEval_singleton]

theorem interpolable_singleton {x : Byte} (hx : x ≠ 0x00#8) : Interpolable [x] :=
  ⟨List.cons_ne_nil _ _, by simpa using hx.symm, List.nodup_singleton x⟩

theorem lagrange0_singleton (p : ReductionPoly) {x : Byte} (hx : x ≠ 0x00#8) (y : Byte) :
    lagrange0 p [(x, y)] = some y :=
  lagrange0_of_forall_snd_eq (interpolable_singleton hx) (by simp)

/-- Settles O13, by Lagrange interpolation in the field of `POLY`. -/
theorem interpolationIsTheValueAtZero : Obligations.InterpolationIsTheValueAtZero := by
  refine ⟨fun p points hi => ?_, fun p x y hx => lagrange0_singleton p hx y, fun _ _ _ h hi => lagrange0_of_perm h hi⟩
  obtain ⟨c, hlen, hc⟩ := exists_passesThrough p hi.2.2
  have hv := lagrange0_eq_polyEval_zero hi hlen.le hc
  refine ⟨polyEval p c 0x00#8, hv, ⟨c, hlen, hc, rfl⟩, fun c' hlen' hc' => ?_⟩
  exact Option.some_inj.1 ((lagrange0_eq_polyEval_zero hi hlen' hc').symm.trans hv)

/-! LAGR0. -/

theorem exec_lagr0_nil (s : State) : exec (.lagr0 []) s = .next (answered [0x03#8] s) := raise_eq _ s

theorem exec_lagr0_of_some {points : List (Byte × Byte)} {v : Byte} {s : State}
    (h : lagrange0 s.config.poly points = some v) : exec (.lagr0 points) s = .next (answered [0x00#8, v] s) := by
  have hne : points.length ≠ 0 := by
    intro h0
    rw [List.length_eq_zero_iff.1 h0] at h
    cases h
  simp only [exec, execLagr0, if_neg hne, h, ret_eq]

theorem exec_lagr0_of_not_interpolable {points : List (Byte × Byte)} (hne : points ≠ [])
    (hi : ¬ Interpolable (points.map Prod.fst)) (s : State) :
    exec (.lagr0 points) s = .next (answered [0x00#8, Config.freeByte s.draws] (afterDraws 1 s)) := by
  simp only [exec, execLagr0, if_neg (List.length_eq_zero_iff.not.2 hne), (lagrange0_eq_none_iff s.config.poly points).2 hi,
    retDrawn_eq]
  rfl

theorem exists_lagrange0_eq_some (p : ReductionPoly) {points : List (Byte × Byte)} (hi : Interpolable (points.map Prod.fst)) :
    ∃ v, lagrange0 p points = some v :=
  Option.ne_none_iff_exists'.1 fun h => (lagrange0_eq_none_iff p points).1 h hi

theorem impliedLength_lagr0 {f : Frame} (hf : f.head? = some 0x20#8) :
    impliedLength (byteAt f) = 2 + 2 * (byteAt f 1).toNat := by
  obtain ⟨bs, rfl⟩ := List.head?_eq_some_iff.1 hf
  rfl

/-- Settles O15, from what `lagrange0` gives in each case and the length LAGR0's header implies. -/
theorem lagrZeroAnswersInEveryCase : Obligations.LagrZeroAnswersInEveryCase := by
  refine ⟨exec_lagr0_nil, fun points s hi => ?_, fun points s hne hi => ⟨_, exec_lagr0_of_not_interpolable hne hi s⟩,
    fun x y s hx => exec_lagr0_of_some (lagrange0_singleton _ hx y),
    fun points v s hi hv => exec_lagr0_of_some (lagrange0_of_forall_snd_eq hi hv), fun points points' s h hi => ?_,
    fun points hlen => ⟨rfl, decode_encode (wellFormed_lagr0_iff.2 hlen)⟩, fun f hf hlen => ?_⟩
  · obtain ⟨v, hv⟩ := exists_lagrange0_eq_some s.config.poly hi
    exact ⟨v, hv, exec_lagr0_of_some hv⟩
  · obtain ⟨v, hv⟩ := exists_lagrange0_eq_some s.config.poly hi
    rw [exec_lagr0_of_some hv, exec_lagr0_of_some ((lagrange0_of_perm h hi).trans hv)]
  · refine decode_badFrame_of_length_ne (o := .lagr0) rfl hf ?_
    rw [impliedLength_lagr0 hf]
    cases hm : f[1]? with
    | none =>
      have := List.getElem?_eq_none_iff.1 hm
      omega
    | some m => exact byteAt_of_getElem? hm ▸ hlen m hm

end Sys2Proof.Machine
end

section
/-! The combine (42_lagrange.md R144): every lane is interpolated on its own, over all shares. -/

namespace Sys2Proof.Machine

theorem isSome_combine_iff (p : ReductionPoly) (shares : List Frame) :
    (combine p shares).isSome = true ↔ Interpolable (indexBytes shares) := by
  rw [Option.isSome_iff_ne_none, Ne, combine_eq_none_iff, not_not]
  rfl

theorem exists_combine_eq_some (p : ReductionPoly) {shares : List Frame} (hi : Interpolable (indexBytes shares)) :
    ∃ key, combine p shares = some key :=
  Option.isSome_iff_exists.1 ((isSome_combine_iff p shares).2 hi)

@[simp] theorem map_fst_lanePoints (b : ℕ) (shares : List Frame) :
    (lanePoints b shares).map Prod.fst = indexBytes shares := by
  simp [lanePoints, indexBytes, Function.comp_def]

theorem lagrange0_lanePoints {p : ReductionPoly} {shares : List Frame} {key : Frame} (h : combine p shares = some key)
    {b : ℕ} (hb : b < 32) : lagrange0 p (lanePoints b shares) = key[b]? := by
  obtain ⟨hi, h⟩ := Option.ite_none_right_eq_some.1 h
  obtain ⟨ws, hws, rfl⟩ := Option.map_eq_some_iff.1 h
  have hx : (lanePoints b shares).map Prod.fst = shares.map shareX := map_fst_lanePoints b shares
  have hy : (lanePoints b shares).map Prod.snd = shares.map (shareY b) := List.map_map
  rw [lagrange0, hx, if_pos hi, hws, hy]
  simp [hb]

/-- Settles O17: `combine` weighs every lane as `lagrange0` does. -/
theorem combineInterpolatesEveryLane : Obligations.CombineInterpolatesEveryLane :=
  fun p shares => ⟨isSome_combine_iff p shares, fun _ h => ⟨length_of_combine h, fun _ hb => lagrange0_lanePoints h hb⟩⟩

/-- The combined key is the one whose byte `b` is the value of lane `b` at 0. -/
theorem combine_eq_some_of_lanes {p : ReductionPoly} {shares : List Frame} {key : Frame}
    (hi : Interpolable (indexBytes shares)) (hlen : key.length = 32)
    (hlanes : ∀ b < 32, lagrange0 p (lanePoints b shares) = key[b]?) : combine p shares = some key := by
  obtain ⟨key', h⟩ := exists_combine_eq_some p hi
  have hlen' := length_of_combine h
  rw [h, Option.some_inj]
  refine List.ext_getElem? fun b => ?_
  by_cases hb : b < 32
  · rw [← hlanes b hb, lagrange0_lanePoints h hb]
  · rw [List.getElem?_eq_none (by omega), List.getElem?_eq_none (by omega)]

theorem combine_of_perm {p : ReductionPoly} {shares shares' : List Frame} (h : shares'.Perm shares)
    (hi : Interpolable (indexBytes shares)) : combine p shares' = combine p shares := by
  obtain ⟨key, hkey⟩ := exists_combine_eq_some p hi
  rw [hkey]
  refine combine_eq_some_of_lanes (interpolable_of_perm (h.map _) hi) (length_of_combine hkey) fun b hb => ?_
  rw [← lagrange0_lanePoints hkey hb]
  exact lagrange0_of_perm (h.map _) (by rwa [map_fst_lanePoints])

theorem combine_singleton (p : ReductionPoly) {x : Byte} {payload : Frame} (hx : x ≠ 0x00#8) (hlen : payload.length = 32) :
    combine p [x :: payload] = some payload := by
  refine combine_eq_some_of_lanes (interpolable_singleton hx) hlen fun b hb => (lagrange0_singleton p hx _).trans ?_
  rw [byteAt, Nat.add_comm, List.getD_cons_succ, List.getD_eq_getElem _ _ (by omega), List.getElem?_eq_getElem (by omega)]

end Sys2Proof.Machine
end

section
/-! What every combine does before the engine: the validation (43_codec.md R164), its errors as answers (R208), the removal of
duplicates (R166), and the frames of format FL (30_encoding.md R75, R76). -/

namespace Sys2Proof.Machine

theorem firstMalformed_eq_none {len pos : ℕ} {recs : List Frame} (h : ∀ r ∈ recs, r.length = len) :
    firstMalformed len pos recs = none := by
  induction recs generalizing pos with
  | nil => rfl
  | cons r rs ih =>
    obtain ⟨hr, hrs⟩ := List.forall_mem_cons.1 h
    rw [firstMalformed, if_pos hr, ih hrs]

theorem firstMalformed_eq_some {len pos i : ℕ} {recs : List Frame} {r : Frame} (h : FirstWrongLength len recs i r) :
    firstMalformed len pos recs =
      some (.malformedShare (BitVec.ofNat 16 (pos + i)) (byteOf r.length) (byteOf len)) := by
  obtain ⟨hget, hne, hbefore⟩ := h
  induction recs generalizing pos i with
  | nil => cases hget
  | cons r' rs ih =>
    cases i with
    | zero =>
      cases hget
      rw [firstMalformed, if_neg hne, Nat.add_zero]
    | succ i =>
      rw [List.take_succ_cons, List.forall_mem_cons] at hbefore
      rw [firstMalformed, if_pos hbefore.1, ih hget hbefore.2, Nat.add_assoc, Nat.add_comm 1 i]

theorem validateCombine_of_le_254 {len : ℕ} {recs : List Frame} (h1 : 1 ≤ recs.length) (h254 : recs.length ≤ 254) :
    validateCombine recs len = firstMalformed len 0 recs := by
  rw [validateCombine, if_neg (by omega), if_neg (not_lt.2 h254)]

theorem validateCombine_of_supplied {len : ℕ} {recs : List Frame} (h : Supplied len recs) :
    validateCombine recs len = none := by
  obtain ⟨h1, h254, hlen⟩ := h
  rw [validateCombine_of_le_254 h1 h254, firstMalformed_eq_none hlen]

theorem validateCombine_tooManyShares {len : ℕ} {recs : List Frame} (h : 254 < recs.length) :
    validateCombine recs len = some .tooManyShares := by
  rw [validateCombine, if_neg (by omega), if_pos h]

/-- A command that raises what the combine validation finds answers its three errors in order. -/
theorem combineErrors_of_raises {len : ℕ} {mk : List Frame → Instr}
    (h : ∀ recs e s, validateCombine recs len = some e → exec (mk recs) s = raise e s) : CombineErrors len mk := by
  refine ⟨fun s => (h _ _ s rfl).trans (raise_eq _ s),
    fun recs s h254 => (h _ _ s (validateCombine_tooManyShares h254)).trans (raise_eq _ s), fun recs s i r h1 h254 hr => ?_⟩
  have hv := (validateCombine_of_le_254 h1 h254).trans (firstMalformed_eq_some (pos := 0) hr)
  rw [Nat.zero_add] at hv
  exact (h _ _ s hv).trans (raise_eq _ s)

theorem mem_dedup {r : Frame} {recs : List Frame} : r ∈ dedup recs ↔ r ∈ recs := by
  induction recs with
  | nil => rfl
  | cons r' rs ih => by_cases h : r = r' <;> simp [dedup, ih, h]

theorem nodup_dedup (recs : List Frame) : (dedup recs).Nodup := by
  induction recs with
  | nil => exact List.nodup_nil
  | cons r rs ih => exact List.nodup_cons.2 ⟨by simp, ih.filter _⟩

theorem dedup_of_nodup {recs : List Frame} (h : recs.Nodup) : dedup recs = recs := by
  induction recs with
  | nil => rfl
  | cons r rs ih =>
    obtain ⟨hr, hrs⟩ := List.nodup_cons.1 h
    rw [dedup, ih hrs, List.filter_eq_self.2 fun r' hr' => bne_iff_ne.2 (ne_of_mem_of_not_mem hr' hr)]

theorem dedup_perm {recs recs' : List Frame} (h : recs'.Perm recs) : (dedup recs').Perm (dedup recs) :=
  (List.perm_ext_iff_of_nodup (nodup_dedup _) (nodup_dedup _)).2 fun _ => by rw [mem_dedup, mem_dedup, h.mem_iff]

/-- Format FL: the frames of a command with a list of records are those its encoder writes. -/
theorem listFormat_of_listCommand {o : Opcode} {mk : List Frame → Instr} (hl : ListCommand o mk) :
    ListFormat (opcodeByte o) mk := by
  have hframe (recs : List Frame) : encode (mk recs) = opcodeByte o :: (countField recs ++ putRecords recs) := by
    rw [encode, hl.opcode_eq, hl.encodeOperands_eq]
  have hwf (recs : List Frame) : wellFormed (mk recs) = true ↔ Sendable recs := by
    rw [hl.wellFormed_eq, recordsFit_iff]
  refine ⟨fun recs h => hframe recs ▸ decode_encode ((hwf recs).2 h), fun f hf hne => ?_⟩
  obtain ⟨bs, rfl⟩ := List.head?_eq_some_iff.1 hf
  refine (decode_ok_or_badFrame (opcodeOf_opcodeByte o) bs).resolve_left ?_
  rintro ⟨i, hi⟩
  have hop := (decode_cons_eq_ok_iff (opcodeOf_opcodeByte o) bs i).1 hi
  rw [hl.decodeOperands_eq] at hop
  obtain ⟨recs, -, rfl⟩ := Option.map_eq_some_iff.1 hop
  obtain ⟨hw, henc⟩ := encodeUndoesDecode _ _ hi
  exact hne recs ((hwf recs).1 hw) (henc.symm.trans (hframe recs))

end Sys2Proof.Machine
end

section
/-! KCOMB and FCOMB (42_lagrange.md R143, R145, R147; 44_fullshare.md R186): shares that pass validation reach the engine, whose
key, or draws for it, is the answer. -/

namespace Sys2Proof.Machine

theorem combineCommand_of_some {shares : List Frame} {key : Frame} {s : State} (h : combine s.config.poly shares = some key)
    (tail : Frame) : combineCommand shares tail s = .next (answered (0x00#8 :: (key ++ tail)) s) := by
  simp only [combineCommand, h, ret_eq]

theorem combineCommand_of_not_interpolable {shares : List Frame} (h : ¬ Interpolable (indexBytes shares)) (tail : Frame)
    (s : State) : combineCommand shares tail s =
      .next (answered (0x00#8 :: (drawnBytes 32 s ++ tail)) (afterDraws 32 s)) := by
  simp only [combineCommand, (combine_eq_none_iff s.config.poly shares).2 h, retDrawn_eq]

/-- No outcome of the engine is an error, whatever the shares are (R147). -/
theorem combineCommand_ok (shares : List Frame) (tail : Frame) (s : State) : ∃ (key : Frame) (d : ℕ), key.length = 32 ∧
    combineCommand shares tail s = .next (answered (0x00#8 :: (key ++ tail)) (afterDraws d s)) := by
  by_cases hi : Interpolable (indexBytes shares)
  · obtain ⟨key, h⟩ := exists_combine_eq_some s.config.poly hi
    exact ⟨key, 0, length_of_combine h, combineCommand_of_some h tail⟩
  · exact ⟨_, 32, length_drawnBytes 32 s, combineCommand_of_not_interpolable hi tail s⟩

theorem exec_kcomb_of_supplied {recs : List Frame} (h : Supplied 33 recs) (s : State) :
    exec (.kcomb recs) s = combineCommand (dedup recs) [] s := by
  simp only [exec, execKcomb, validateCombine_of_supplied h]

theorem exec_kcomb_of_combine {recs : List Frame} (h : Supplied 33 recs) {key : Frame} {s : State}
    (hkey : combine s.config.poly (dedup recs) = some key) :
    exec (.kcomb recs) s = .next (answered (0x00#8 :: key) s) := by
  rw [exec_kcomb_of_supplied h, combineCommand_of_some hkey, List.append_nil]

theorem exec_kcomb_of_not_interpolable {recs : List Frame} (h : Supplied 33 recs)
    (hi : ¬ Interpolable (indexBytes (dedup recs))) (s : State) :
    exec (.kcomb recs) s = .next (answered (0x00#8 :: drawnBytes 32 s) (afterDraws 32 s)) := by
  rw [exec_kcomb_of_supplied h, combineCommand_of_not_interpolable hi, List.append_nil]

theorem exec_kcomb_of_invalid {recs : List Frame} {e : Error} (s : State) (h : validateCombine recs 33 = some e) :
    exec (.kcomb recs) s = raise e s := by
  simp only [exec, execKcomb, h]

theorem supplied_of_perm {len : ℕ} {recs recs' : List Frame} (h : recs'.Perm recs) (hs : Supplied len recs) :
    Supplied len recs' := by
  rw [Supplied, h.length_eq]
  exact ⟨hs.1, hs.2.1, fun r hr => hs.2.2 r (h.mem_iff.1 hr)⟩

/-- Settles O18, by the outcomes of the validation and of the engine. -/
theorem kcombAnswersInEveryCase : Obligations.KcombAnswersInEveryCase := by
  refine ⟨combineErrors_of_raises fun _ _ s => exec_kcomb_of_invalid s, fun recs s h hi => ?_,
    fun recs s h hi => ⟨_, length_drawnBytes 32 s, exec_kcomb_of_not_interpolable h hi s⟩, fun x payload s hx hlen => ?_,
    fun recs recs' s hp h hi => ?_, listFormat_of_listCommand .kcomb⟩
  · obtain ⟨key, hkey⟩ := exists_combine_eq_some s.config.poly hi
    exact ⟨key, hkey, exec_kcomb_of_combine h hkey⟩
  · have h : Supplied 33 [x :: payload] := by simp [Supplied, hlen]
    exact exec_kcomb_of_combine h (combine_singleton _ hx hlen)
  · obtain ⟨key, hkey⟩ := exists_combine_eq_some s.config.poly hi
    rw [exec_kcomb_of_combine h hkey,
      exec_kcomb_of_combine (supplied_of_perm hp h) ((combine_of_perm (dedup_perm hp) hi).trans hkey)]

/-! FCOMB on full shares that all carry one envelope. -/

theorem envelopePart_eq_envOf {share : Frame} (h : share.length = 113) : envelopePart share = envOf share :=
  List.take_of_length_le (by simp [h])

theorem firstDiffering_eq_none {env : Frame} {pos : ℕ} {recs : List Frame} (h : ∀ r ∈ recs, envelopePart r = env) :
    firstDiffering env pos recs = none := by
  induction recs generalizing pos with
  | nil => rfl
  | cons r rs ih =>
    obtain ⟨hr, hrs⟩ := List.forall_mem_cons.1 h
    rw [firstDiffering, if_pos hr, ih hrs]

section
variable {recs : List Frame} {env : Frame} (h : Supplied 113 recs) (henv : SameEnvelope env recs)
include h henv

theorem envelopePart_of_sameEnvelope {r : Frame} (hr : r ∈ recs) : envelopePart r = env :=
  (envelopePart_eq_envOf (h.2.2 r hr)).trans (henv r hr)

theorem commonEnvelope_of_sameEnvelope : commonEnvelope recs = env := by
  obtain ⟨r, rs, rfl⟩ := List.exists_cons_of_length_pos h.1
  exact envelopePart_of_sameEnvelope h henv List.mem_cons_self

theorem validateFull_of_sameEnvelope : validateFull recs = none := by
  simp only [validateFull, validateCombine_of_supplied h, commonEnvelope_of_sameEnvelope h henv,
    firstDiffering_eq_none fun r hr => envelopePart_of_sameEnvelope h henv hr]

theorem exec_fcomb_of_sameEnvelope (s : State) :
    exec (.fcomb recs) s = combineCommand (dedup (recs.map keyOf)) env s := by
  simp only [exec, execFcomb, validateFull_of_sameEnvelope h henv, commonEnvelope_of_sameEnvelope h henv]
  rfl

theorem exec_fcomb_of_combine {key : Frame} {s : State} (hkey : combine s.config.poly (dedup (recs.map keyOf)) = some key) :
    exec (.fcomb recs) s = .next (answered (0x00#8 :: (key ++ env)) s) := by
  rw [exec_fcomb_of_sameEnvelope h henv, combineCommand_of_some hkey]

end

/-- Settles O16: the engine has no value, and the answer holds the next draws. -/
theorem brokenPreconditionAnswersOkWithDraws : Obligations.BrokenPreconditionAnswersOkWithDraws :=
  ⟨fun _ s hne hi => exec_lagr0_of_not_interpolable hne hi s, fun _ s h hi => exec_kcomb_of_not_interpolable h hi s,
    fun _ env s h henv hi =>
      (exec_fcomb_of_sameEnvelope h henv s).trans (combineCommand_of_not_interpolable hi env s)⟩

/-- Settles O20: behind the validation nothing raises an error. -/
theorem noDetectionOfTooFewShares : Obligations.NoDetectionOfTooFewShares := by
  refine ⟨fun recs s h => ?_, fun recs env s h henv => ?_, fun p recs h hi => ?_, fun p recs env h henv hi => ?_⟩
  · rw [exec_kcomb_of_supplied h]
    simpa only [List.append_nil] using combineCommand_ok (dedup recs) [] s
  · rw [exec_fcomb_of_sameEnvelope h henv]
    exact combineCommand_ok (dedup (recs.map keyOf)) env s
  · obtain ⟨key, hkey⟩ := exists_combine_eq_some p hi
    exact ⟨key, hkey, fun s hs => exec_kcomb_of_combine h (hs ▸ hkey)⟩
  · obtain ⟨key, hkey⟩ := exists_combine_eq_some p hi
    exact ⟨key, hkey, fun s hs => exec_fcomb_of_combine h henv (hs ▸ hkey)⟩

end Sys2Proof.Machine
end

section
/-! The round trip (42_lagrange.md R146): any `k` shares of a split lie, lane by lane, on a polynomial with `k` coefficients
whose value at 0 is the secret's byte; and so through KCOMB and FCOMB. -/

namespace Sys2Proof.Machine

/-- The share of a split at the index byte `x` (R122). -/
def shareAt (p : ReductionPoly) (secret : Frame) (k : ℕ) (r : Frame) (x : Byte) : Frame :=
  x :: (laneCoefficients k r secret).map fun c => polyEval p c x

section
variable {p : ReductionPoly} {secret r : Frame} {n k : ℕ}

/-- A share of a split is a function of its index byte, which is not `0x00` (R122). -/
theorem eq_shareAt_of_mem_split (hn : n ≤ 255) {share : Frame} (h : share ∈ split p secret n k r) :
    byteAt share 0 ≠ 0x00#8 ∧ share = shareAt p secret k r (byteAt share 0) := by
  obtain ⟨i, hi, rfl⟩ := List.mem_map.1 h
  rw [List.mem_range] at hi
  refine ⟨fun h0 => ?_, rfl⟩
  have hnat : (byteOf (i + 1)).toNat = 0 := congrArg BitVec.toNat h0
  rw [toNat_byteOf (by omega)] at hnat
  omega

theorem length_laneOf (hk : 1 ≤ k) (b : ℕ) : (laneOf k r secret b).length = k := by
  simp [laneOf, Nat.sub_add_cancel hk]

theorem byteAt_shareAt (hr : r.length = secret.length * (k - 1)) {b : ℕ} (hb : b < secret.length) (x : Byte) :
    byteAt (shareAt p secret k r x) (1 + b) = polyEval p (laneOf k r secret b) x := by
  rw [shareAt, laneCoefficients_eq hr, byteAt, Nat.add_comm, List.getD_cons_succ]
  simp [hb]

variable {shares : List Frame} (hn : n ≤ 255) (hnodup : shares.Nodup) (hmem : ∀ s ∈ shares, s ∈ split p secret n k r)
include hn hnodup hmem

theorem interpolable_split (hne : shares ≠ []) : Interpolable (indexBytes shares) := by
  refine ⟨List.map_eq_nil_iff.not.2 hne, fun h0 => ?_, hnodup.map_on fun s hs t ht hst => ?_⟩
  · obtain ⟨s, hs, hs0⟩ := List.mem_map.1 h0
    exact (eq_shareAt_of_mem_split hn (hmem s hs)).1 hs0
  · rw [(eq_shareAt_of_mem_split hn (hmem s hs)).2, hst, ← (eq_shareAt_of_mem_split hn (hmem t ht)).2]

theorem combine_split (hs : secret.length = 32) (hr : r.length = 32 * (k - 1)) (hk : 1 ≤ k) (hm : k ≤ shares.length) :
    combine p shares = some secret := by
  have hi := interpolable_split hn hnodup hmem (List.length_pos_iff.1 (hk.trans hm))
  refine combine_eq_some_of_lanes hi hs fun b hb => ?_
  have hlane : PassesThrough p (laneOf k r secret b) (lanePoints b shares) := by
    intro q hq
    obtain ⟨s, hshare, rfl⟩ := List.mem_map.1 hq
    conv_rhs => rw [(eq_shareAt_of_mem_split hn (hmem s hshare)).2]
    exact (byteAt_shareAt (hs.symm ▸ hr) (hs.symm ▸ hb) _).symm
  rw [lagrange0_eq_polyEval_zero (by rwa [map_fst_lanePoints]) (by simpa [length_laneOf hk, lanePoints] using hm) hlane,
    laneOf, polyEval_cons_zero]
  simp [byteAt, hs, hb]

end

/-- Settles O19, by interpolation in every lane. -/
theorem anyThresholdSubsetCombinesToTheSecret : Obligations.AnyThresholdSubsetCombinesToTheSecret := by
  rintro p secret n k r shares hs ⟨hk, -, hn⟩ hr hnodup hmem hm
  have hcombine := combine_split hn hnodup hmem hs hr hk hm
  refine ⟨hcombine, ?_⟩
  rintro s rfl
  refine ⟨fun h254 => ?_, fun h255 => ?_⟩
  · have hsup : Supplied 33 shares := ⟨hk.trans hm, h254, fun share h => by rw [length_of_mem_split (hmem share h), hs]⟩
    exact exec_kcomb_of_combine hsup (by rwa [dedup_of_nodup hnodup])
  · exact (exec_kcomb_of_invalid s (validateCombine_tooManyShares (by omega))).trans (raise_eq _ s)

/-- Settles O33: the key-shares of different full shares with one envelope differ, and combine to the key. -/
theorem fullSharesCombineToKeyAndEnvelope : Obligations.FullSharesCombineToKeyAndEnvelope := by
  rintro key env n k r shares s hkey henv ⟨hk, -, hn⟩ hr hnodup hmem hm h254
  have parts : ∀ f ∈ shares, keyOf f ∈ split s.config.poly key n k r ∧ envOf f = env ∧ f.length = 113 := by
    intro f hf
    obtain ⟨ks, hks, rfl⟩ := hmem f hf
    have hlen : ks.length = 33 := by rw [length_of_mem_split hks, hkey]
    exact ⟨by rwa [keyOf, List.take_left' hlen], List.drop_left' hlen, by rw [List.length_append, hlen, henv]⟩
  have hkeys : (shares.map keyOf).Nodup := hnodup.map_on fun f hf g hg h => by
    rw [← List.take_append_drop 33 f, ← List.take_append_drop 33 g]
    exact congrArg₂ _ h ((parts f hf).2.1.trans (parts g hg).2.1.symm)
  have hcombine : combine s.config.poly (shares.map keyOf) = some key :=
    combine_split hn hkeys (List.forall_mem_map.2 fun f hf => (parts f hf).1) hkey hr hk (by rwa [List.length_map])
  exact exec_fcomb_of_combine ⟨hk.trans hm, h254, fun f hf => (parts f hf).2.2⟩ (fun f hf => (parts f hf).2.1)
    (by rwa [dedup_of_nodup hkeys])

end Sys2Proof.Machine
end

section
/-! The removal of duplicates (43_codec.md R166) and DEDUP (R167): `dedup` of a list that grows at its end is what it was, then
those new records that did not stand in it yet. -/

namespace Sys2Proof.Machine

theorem dedup_append (recs recs' : List Frame) :
    dedup (recs ++ recs') = dedup recs ++ (dedup recs').filter fun r => decide (r ∉ recs) := by
  induction recs with
  | nil => simp [dedup]
  | cons r rs ih =>
    simp only [List.cons_append, dedup, ih, List.filter_append, List.filter_filter, List.mem_cons, not_or, Bool.decide_and,
      decide_not, bne, beq_eq_decide]

theorem dedup_append_self (recs : List Frame) : dedup (recs ++ recs) = dedup recs := by
  have nothing : ((dedup recs).filter fun r => decide (r ∉ recs)) = [] := by simp [mem_dedup]
  rw [dedup_append, nothing, List.append_nil]

theorem dedup_ne_nil {recs : List Frame} (h : recs ≠ []) : dedup recs ≠ [] := by
  obtain ⟨r, rs, rfl⟩ := List.exists_cons_of_ne_nil h
  exact List.cons_ne_nil _ _

/-- The definition of R166 by positions. -/
theorem dedup_eq_filter_zipIdx (recs : List Frame) :
    dedup recs = (recs.zipIdx.filter fun q => decide (q.1 ∉ recs.take q.2)).map Prod.fst := by
  induction recs using List.reverseRecOn with
  | nil => rfl
  | append_singleton rs r ih =>
    have before : ∀ q ∈ rs.zipIdx, decide (q.1 ∉ (rs ++ [r]).take q.2) = decide (q.1 ∉ rs.take q.2) := by
      intro q hq
      rw [List.take_append_of_le_length (List.snd_lt_of_mem_zipIdx hq).le]
    rw [dedup_append, ih, List.zipIdx_append, List.filter_append, List.map_append, List.filter_congr before]
    by_cases hr : r ∈ rs <;> simp [dedup, hr]

/-- Settles O23, by what `dedup` is of a list that grows at its end. -/
theorem dedupKeepsTheFirstOfEveryGroup : Obligations.DedupKeepsTheFirstOfEveryGroup := fun recs =>
  ⟨dedup_eq_filter_zipIdx recs, dedup_of_nodup (nodup_dedup recs), dedup_append_self recs, nodup_dedup recs, dedup_ne_nil,
    fun x a b hab => dedup_of_nodup (by simp [hab])⟩

/-- Settles O24: DEDUP validates nothing, and its frames are those of format FL. -/
theorem dedupCommandAnswersTheSurvivors : Obligations.DedupCommandAnswersTheSurvivors :=
  ⟨fun _ s => ret_eq _ s, fun s => ret_eq _ s, listFormat_of_listCommand .dedup⟩

end Sys2Proof.Machine
end

section
/-! VALSPLIT and VALCOMB (43_codec.md R162 to R165): each answers what its check finds. -/

namespace Sys2Proof.Machine

/-- Settles O21, by the outcomes of the parameter check. -/
theorem valsplitAnswersInEveryCase : Obligations.ValsplitAnswersInEveryCase := by
  refine ⟨fun n k s => ⟨fun hn => ?_, fun h1 h255 hk => ?_, fun hv => ?_⟩,
    fun n k => ⟨rfl, decode_encode (i := .valsplit n k) rfl⟩,
    wrongLengthIsBadFrame (o := .valsplit) rfl fun g h => by simp only [impliedLength, h]⟩
  · exact (exec_valsplit_of_some (validateSplit_invalidCount k hn) s).trans (raise_eq _ s)
  · exact (exec_valsplit_of_some (validateSplit_invalidThreshold h1 h255 hk) s).trans (raise_eq _ s)
  · exact exec_valsplit_of_none ((validateSplit_eq_none_iff n k).2 hv) s

theorem exec_valcomb_of_some {kind : ShareKind} {recs : List Frame} {e : Error} (s : State)
    (h : validateCombine recs (expectedLength kind) = some e) : exec (.valcomb kind recs) s = raise e s := by
  simp only [exec, execValcomb, h]

theorem exec_valcomb_of_supplied {kind : ShareKind} {recs : List Frame} (h : Supplied (expectedLength kind) recs)
    (s : State) : exec (.valcomb kind recs) s = .next (answered [0x00#8] s) := by
  simp only [exec, execValcomb, validateCombine_of_supplied h, ret_eq]

/-- Format FV, one way: the frame of each kind is the one the encoder writes (R75). -/
theorem decode_valcomb (kind : ShareKind) {recs : List Frame} (h : Sendable recs) :
    decode (0x31#8 :: kindByte kind :: (countField recs ++ putRecords recs)) = .ok (.valcomb kind recs) :=
  decode_encode (i := .valcomb kind recs) ((recordsFit_iff recs).2 h)

/-- Format FV, the other way: a VALCOMB frame that decodes holds a kind and records (R75). -/
theorem exists_records_of_decode_valcomb {f : Frame} {i : Instr} (hf : f.head? = some 0x31#8) (h : decode f = .ok i) :
    ∃ kind recs, Sendable recs ∧ f = 0x31#8 :: kindByte kind :: (countField recs ++ putRecords recs) := by
  obtain ⟨bs, rfl⟩ := List.head?_eq_some_iff.1 hf
  obtain ⟨hw, hop, hbs⟩ := encode_of_decodeOperands ((decode_cons_eq_ok_iff (o := .valcomb) rfl bs i).1 h)
  cases i with
  | valcomb kind recs => exact ⟨kind, recs, (recordsFit_iff recs).1 hw, congrArg (List.cons _) hbs.symm⟩
  | _ => cases hop

/-- Settles O22, by the outcomes of the combine validation, and format FV both ways. -/
theorem valcombAnswersInEveryCase : Obligations.ValcombAnswersInEveryCase := by
  refine ⟨combineErrors_of_raises fun _ _ s => exec_valcomb_of_some (kind := .keyShare) s,
    combineErrors_of_raises fun _ _ s => exec_valcomb_of_some (kind := .fullShare) s,
    fun recs s h => exec_valcomb_of_supplied (kind := .keyShare) h s,
    fun recs s h => exec_valcomb_of_supplied (kind := .fullShare) h s,
    fun recs h => ⟨decode_valcomb .keyShare h, decode_valcomb .fullShare h⟩, fun f hf hne => ?_⟩
  obtain ⟨bs, rfl⟩ := List.head?_eq_some_iff.1 hf
  refine (decode_ok_or_badFrame (o := .valcomb) rfl bs).resolve_left ?_
  rintro ⟨i, hi⟩
  obtain ⟨kind, recs, hrecs, heq⟩ := exists_records_of_decode_valcomb hf hi
  cases kind with
  | keyShare => exact (hne recs hrecs).1 heq
  | fullShare => exact (hne recs hrecs).2 heq

end Sys2Proof.Machine
end

section
/-! The codec of one key-share: KFRAME and KUNFRAME (43_codec.md R160, R161, R168, R169). -/

namespace Sys2Proof.Machine

theorem exec_kframe {index : Byte} (h : index ≠ 0x00#8) (payload : Frame) (s : State) :
    exec (.kframe index payload) s = .next (answered (0x00#8 :: index :: payload) s) := by
  rw [exec, execKframe, if_neg h, ret_eq, frameKeyShare]

/-- Settles O25, by whether the index is zero. -/
theorem kframeAnswersTheKeyShare : Obligations.KframeAnswersTheKeyShare :=
  ⟨fun _ s _ => raise_eq _ s, fun _ payload s h _ => exec_kframe h payload s,
    fun _ _ hp => ⟨rfl, decode_encode (wellFormed_kframe_iff.2 hp)⟩,
    wrongLengthIsBadFrame (o := .kframe) rfl fun g h => by simp only [impliedLength, h]⟩

theorem exec_kunframe_cons (index : Byte) {payload : Frame} (h : payload.length = 32) (s : State) :
    exec (.kunframe (index :: payload)) s = .next (answered (0x00#8 :: index :: payload) s) := by
  have hlen : (index :: payload).length = Config.KS_LEN := by rw [List.length_cons, h]
  have hread : memRead (index :: payload) 1 Config.L = payload := List.take_of_length_le h.le
  rw [exec, execKunframe, if_pos hlen, hread, ret_eq]
  rfl

theorem exec_kunframe_of_length_ne {share : Frame} (h : share.length ≠ 33) (s : State) :
    exec (.kunframe share) s = .next (answered (malformedResponse 0 share.length 33) s) := by
  rw [exec, execKunframe, if_neg h, raise_eq]
  rfl

theorem impliedLength_kunframe {f : Frame} (hf : f.head? = some 0x34#8) :
    impliedLength (byteAt f) = 2 + (byteAt f 1).toNat := by
  obtain ⟨bs, rfl⟩ := List.head?_eq_some_iff.1 hf
  rfl

/-- Settles O26, by the length of the share and the length KUNFRAME's header implies. -/
theorem kunframeAnswersTheFieldsOrMalformedShare : Obligations.KunframeAnswersTheFieldsOrMalformedShare := by
  refine ⟨fun index payload s h => exec_kunframe_cons index h s, fun share s _ h => exec_kunframe_of_length_ne h s,
    fun share h => ⟨rfl, decode_encode (wellFormed_kunframe_iff.2 h)⟩, fun f hf hlen => ?_⟩
  refine decode_badFrame_of_length_ne (o := .kunframe) rfl hf ?_
  rw [impliedLength_kunframe hf]
  cases hl : f[1]? with
  | none =>
    have := List.getElem?_eq_none_iff.1 hl
    omega
  | some len => exact byteAt_of_getElem? hl ▸ hlen len hl

end Sys2Proof.Machine
end

section
/-! Doubled share lists (43_codec.md R170): the count check sees every copy, the engine behind `dedup` only one. -/

namespace Sys2Proof.Machine

theorem supplied_append_self {len : ℕ} {recs : List Frame} (h : Supplied len recs) (h127 : recs.length ≤ 127) :
    Supplied len (recs ++ recs) := by
  obtain ⟨h1, -, hlen⟩ := h
  rw [Supplied, List.length_append]
  exact ⟨by omega, by omega, fun r hr => hlen r (by simpa using hr)⟩

theorem exec_kcomb_append_self {recs : List Frame} (h : Supplied 33 recs) (h127 : recs.length ≤ 127) (s : State) :
    exec (.kcomb (recs ++ recs)) s = exec (.kcomb recs) s := by
  rw [exec_kcomb_of_supplied (supplied_append_self h h127), exec_kcomb_of_supplied h, dedup_append_self]

theorem exec_fcomb_append_self {recs : List Frame} {env : Frame} (h : Supplied 113 recs) (henv : SameEnvelope env recs)
    (h127 : recs.length ≤ 127) (s : State) : exec (.fcomb (recs ++ recs)) s = exec (.fcomb recs) s := by
  have henv' : SameEnvelope env (recs ++ recs) := fun r hr => henv r (by simpa using hr)
  rw [exec_fcomb_of_sameEnvelope (supplied_append_self h h127) henv', exec_fcomb_of_sameEnvelope h henv, List.map_append,
    dedup_append_self]

theorem exec_fcomb_of_invalid {recs : List Frame} {e : Error} (s : State) (h : validateCombine recs 113 = some e) :
    exec (.fcomb recs) s = raise e s := by
  simp only [exec, execFcomb, validateFull, h]

/-- Settles O27: up to 127 shares the doubled list passes the validation, and what reaches the engine is the same. -/
theorem duplicatesAreTolerated : Obligations.DuplicatesAreTolerated := by
  refine ⟨fun recs s h h127 => ⟨fun _ => exec_kcomb_append_self h h127 s, fun hi => ?_⟩,
    fun recs env s h henv h127 => ⟨fun _ => exec_fcomb_append_self h henv h127 s, fun hi => ?_⟩, fun recs s h128 => ?_⟩
  · have draws := exec_kcomb_of_not_interpolable h hi s
    exact ⟨_, _, length_drawnBytes 32 s, length_drawnBytes 32 s, (exec_kcomb_append_self h h127 s).trans draws, draws⟩
  · have draws := (exec_fcomb_of_sameEnvelope h henv s).trans (combineCommand_of_not_interpolable hi env s)
    exact ⟨_, _, length_drawnBytes 32 s, length_drawnBytes 32 s, (exec_fcomb_append_self h henv h127 s).trans draws, draws⟩
  · have h254 : 254 < (recs ++ recs).length := by
      rw [List.length_append]
      omega
    exact ⟨(exec_kcomb_of_invalid s (validateCombine_tooManyShares h254)).trans (raise_eq _ s),
      (exec_fcomb_of_invalid s (validateCombine_tooManyShares h254)).trans (raise_eq _ s)⟩

end Sys2Proof.Machine
end

section
/-! Framing and unframing undo each other (43_codec.md R160; 44_fullshare.md R180, R182, R184). -/

namespace Sys2Proof.Machine

theorem exec_fframe {keyShares : List Frame} (h1 : 1 ≤ keyShares.length) (h255 : keyShares.length ≤ 255) (env : Frame)
    (s : State) :
    exec (.fframe env keyShares) s = .next (answered (0x00#8 :: keyShares.flatMap fun ks => ks ++ env) s) := by
  rw [exec, execFframe, if_neg (not_or.2 ⟨h1.not_gt, h255.not_gt⟩), ret_eq]
  rfl

theorem exec_funframe_of_sameEnvelope {recs : List Frame} {env : Frame} (h : Supplied 113 recs)
    (henv : SameEnvelope env recs) (s : State) :
    exec (.funframe recs) s = .next (answered (0x00#8 :: (countField recs ++ env ++ recs.flatMap keyOf)) s) := by
  simp only [exec, execFunframe, validateFull_of_sameEnvelope h henv, commonEnvelope_of_sameEnvelope h henv, ret_eq]
  rfl

/-- Each full share is its key-share and its envelope, one after the other (R180). -/
theorem flatMap_keyOf_append_env {recs : List Frame} {env : Frame} (henv : SameEnvelope env recs) :
    ((recs.map keyOf).flatMap fun ks => ks ++ env) = recs.flatten := by
  have whole : ∀ r ∈ recs, keyOf r ++ env = r := fun r hr => by rw [← henv r hr, keyOf, envOf, List.take_append_drop]
  rw [List.flatMap_map, List.flatMap_def, List.map_congr_left whole, List.map_id']

/-- Settles O34: the key-shares and the envelope of a full share are all of it, and so are the index and the payload of a
key-share. -/
theorem framingUndoesUnframing : Obligations.FramingUndoesUnframing := by
  refine ⟨fun recs env s h henv => ⟨?_, ?_⟩, fun index payload s hx hlen =>
    ⟨index :: payload, by rw [List.length_cons, hlen], exec_kframe hx payload s, exec_kunframe_cons index hlen s⟩⟩
  · rw [exec_funframe_of_sameEnvelope h henv, List.flatMap_def]
  · obtain ⟨h1, h254, -⟩ := h
    rw [exec_fframe (by rwa [List.length_map]) (by rw [List.length_map]; omega), flatMap_keyOf_append_env henv]

end Sys2Proof.Machine
end

section
/-! The framer of full shares (44_fullshare.md R182 to R184): FFRAME and FUNFRAME, and the envelope check that FUNFRAME and FCOMB
share (R183). -/

namespace Sys2Proof.Machine

/-! FFRAME. -/

theorem exec_fframe_invalidCount {keyShares : List Frame} (h : keyShares.length = 0 ∨ 255 < keyShares.length) (env : Frame)
    (s : State) : exec (.fframe env keyShares) s = .next (answered [0x01#8] s) := by
  rw [exec, execFframe, if_pos (h.imp_left Nat.lt_one_iff.2), raise_eq]
  rfl

theorem impliedLength_fframe {f : Frame} (hf : f.head? = some 0x40#8) :
    impliedLength (byteAt f) = 83 + 33 * ((byteAt f 1).toNat + 256 * (byteAt f 2).toNat) := by
  obtain ⟨bs, rfl⟩ := List.head?_eq_some_iff.1 hf
  rw [← toNat_fromU16le]
  rfl

/-- Settles O28, by the number of key-shares and the length FFRAME's header implies. -/
theorem fframeAnswersTheFullShares : Obligations.FframeAnswersTheFullShares := by
  refine ⟨fun env keyShares s _ _ =>
      ⟨fun h => exec_fframe_invalidCount h env s, fun h1 h255 => exec_fframe h1 h255 env s⟩,
    fun env keyShares henv hks hn => ⟨rfl, decode_encode (wellFormed_fframe_iff.2 ⟨henv, hn, hks⟩)⟩, fun f hf hlen => ?_⟩
  refine decode_badFrame_of_length_ne (o := .fframe) rfl hf ?_
  rw [impliedLength_fframe hf]
  by_cases hshort : f.length ≤ 2
  · omega
  · have hlo : f[1]? = some f[1] := List.getElem?_eq_getElem (by omega)
    have hhi : f[2]? = some f[2] := List.getElem?_eq_getElem (by omega)
    rw [byteAt_of_getElem? hlo, byteAt_of_getElem? hhi]
    exact hlen _ _ hlo hhi

/-! The envelope check. -/

theorem validateFull_of_validateCombine {recs : List Frame} {e : Error} (h : validateCombine recs 113 = some e) :
    validateFull recs = some e := by
  simp only [validateFull, h]

theorem firstDiffering_eq_some {env r : Frame} {pos i : ℕ} {recs : List Frame} (hget : recs[i]? = some r)
    (hne : envelopePart r ≠ env) (hbefore : ∀ r' ∈ recs.take i, envelopePart r' = env) :
    firstDiffering env pos recs = some (.malformedShare (BitVec.ofNat 16 (pos + i)) (byteOf 113) (byteOf 113)) := by
  induction recs generalizing pos i with
  | nil => cases hget
  | cons r' rs ih =>
    cases i with
    | zero =>
      cases hget
      rw [firstDiffering, if_neg hne, Nat.add_zero]
    | succ i =>
      rw [List.take_succ_cons, List.forall_mem_cons] at hbefore
      rw [firstDiffering, if_pos hbefore.1, ih hget hbefore.2, Nat.add_assoc, Nat.add_comm 1 i]

theorem commonEnvelope_eq_envOf_headD {recs : List Frame} (h : Supplied 113 recs) :
    commonEnvelope recs = envOf (recs.headD []) := by
  obtain ⟨r, rs, rfl⟩ := List.exists_cons_of_length_pos h.1
  exact envelopePart_eq_envOf (h.2.2 r List.mem_cons_self)

/-- Shares of the right lengths: the check finds the first whose envelope is not that of position 0 (R183). -/
theorem validateFull_of_envOf_ne {recs : List Frame} {i : ℕ} {r : Frame} (h : Supplied 113 recs) (hget : recs[i]? = some r)
    (hne : envOf r ≠ envOf (recs.headD [])) (hbefore : ∀ r' ∈ recs.take i, envOf r' = envOf (recs.headD [])) :
    validateFull recs = some (.malformedShare (BitVec.ofNat 16 i) (byteOf 113) (byteOf 113)) := by
  have whole : ∀ r' ∈ recs, envelopePart r' = envOf r' := fun r' hr' => envelopePart_eq_envOf (h.2.2 r' hr')
  have hdiff := firstDiffering_eq_some (pos := 0) hget (by rwa [whole r (List.mem_of_getElem? hget)]) fun r' hr' =>
    (whole r' (List.mem_of_mem_take hr')).trans (hbefore r' hr')
  simp only [validateFull, validateCombine_of_supplied h, commonEnvelope_eq_envOf_headD h, hdiff, Nat.zero_add]

section
variable {mk : List Frame → Instr} (h : ∀ recs e s, validateFull recs = some e → exec (mk recs) s = raise e s)
include h

/-- A command that raises what the full-share validation finds answers the errors of the combine validation. -/
theorem combineErrors_of_raises_validateFull : CombineErrors 113 mk :=
  combineErrors_of_raises fun recs e s hv => h recs e s (validateFull_of_validateCombine hv)

/-- A command that raises what the full-share validation finds answers the envelope error. -/
theorem envelopeError_of_raises_validateFull : EnvelopeError mk := fun recs s _ _ hs hget hne hbefore =>
  (h recs _ s (validateFull_of_envOf_ne hs hget hne hbefore)).trans (raise_eq _ s)

end

/-! FUNFRAME. -/

theorem exec_funframe_of_validateFull (recs : List Frame) (e : Error) (s : State) (h : validateFull recs = some e) :
    exec (.funframe recs) s = raise e s := by
  simp only [exec, execFunframe, h]

/-- Settles O29, by the outcomes of the full-share validation. -/
theorem funframeAnswersInEveryCase : Obligations.FunframeAnswersInEveryCase :=
  ⟨combineErrors_of_raises_validateFull exec_funframe_of_validateFull,
    envelopeError_of_raises_validateFull exec_funframe_of_validateFull,
    fun _ _ s h henv => exec_funframe_of_sameEnvelope h henv s, listFormat_of_listCommand .funframe⟩

end Sys2Proof.Machine
end

section
/-! FSPLIT (44_fullshare.md R185): the split of KSPLIT with another framing of its shares, so KSPLIT followed by FFRAME. -/

namespace Sys2Proof.Machine

/-- Settles O30, by the outcomes of the parameter check and of the request of the random port, as for KSPLIT. -/
theorem fsplitAnswersInEveryCase : Obligations.FsplitAnswersInEveryCase := by
  refine ⟨fun n k key env s _ _ => ⟨fun hn => ?_, fun h1 h255 hk => ?_, fun hv hk => ?_,
    fun hv hk rest hs => (isSplit_fsplit n k key env).exec_fail hv hk hs, fun hv hk r rest hs hr => ?_⟩,
    fun n k key env hkey henv => ⟨rfl, decode_encode (wellFormed_fsplit_iff.2 ⟨hkey, henv⟩)⟩,
    wrongLengthIsBadFrame (o := .fsplit) rfl fun g h => by simp only [impliedLength, h]⟩
  · exact (splitCommand_of_invalid key (frameFull env) (validateSplit_invalidCount k hn) s).trans (raise_eq _ s)
  · exact (splitCommand_of_invalid key (frameFull env) (validateSplit_invalidThreshold h1 h255 hk) s).trans (raise_eq _ s)
  · refine (splitCommand_of_answered key (frameFull env) hv (by rw [hk, splitRandom_one])).trans ?_
    rw [hk, split_threshold_one, List.flatMap_map]
    rfl
  · exact splitCommand_of_answered key (frameFull env) hv (splitRandom_bytes hk hs hr)

/-- A split gets its random bytes when it asks for none or the port holds them (R43, R44). -/
theorem exists_splitRandom_answered {k : ℕ} {s : State} (hk : 1 ≤ k)
    (h : k = 1 ∨ ∃ r rest, s.rng = .bytes r :: rest ∧ r.length = 32 * (k - 1)) :
    ∃ r t, splitRandom k s = .answered r t := by
  obtain rfl | hk2 := hk.eq_or_lt
  · exact ⟨[], s, splitRandom_one s⟩
  · obtain ⟨r, rest, hs, hr⟩ := h.resolve_left hk2.ne'
    exact ⟨r, afterAnswer rest s, splitRandom_bytes hk2 hs hr⟩

/-- The key-shares of a split can be cut out of their concatenation (R74). -/
theorem takeChunks_flatten_split (p : ReductionPoly) {secret : Frame} (hs : secret.length = 32) (n k : ℕ) (r : Frame) :
    takeChunks 33 n (split p secret n k r).flatten = split p secret n k r := by
  have hlen : ∀ share ∈ split p secret n k r, share.length = 33 := fun share h => by rw [length_of_mem_split h, hs]
  simpa only [length_split] using takeChunks_flatten 33 _ hlen

/-- Settles O31: the body KSPLIT answers is the key-shares one after the other, which FFRAME gets back and frames as FSPLIT
does. -/
theorem fsplitIsKsplitThenFframe : Obligations.FsplitIsKsplitThenFframe := by
  intro n k key env s hkey _ hv hrandom
  have ⟨hk, hkn, hn⟩ := hv
  obtain ⟨r, t, hrt⟩ := exists_splitRandom_answered hk hrandom
  have hfsplit := splitCommand_of_answered key (frameFull env) hv hrt
  refine ⟨(split s.config.poly key n.toNat k.toNat r).flatten, _, t, ?_, ?_, hfsplit⟩
  · rw [← List.flatMap_id]
    exact splitCommand_of_answered key id hv hrt
  · rw [takeChunks_flatten_split s.config.poly hkey]
    exact exec_fframe (by rw [length_split]; exact hk.trans hkn) (by rwa [length_split]) env t

end Sys2Proof.Machine
end

section
/-! FCOMB (44_fullshare.md R186), and why it may remove duplicates among the key-shares. -/

namespace Sys2Proof.Machine

/-- A map that keeps different records different commutes with the removal of duplicates. -/
theorem dedup_map_of_injOn {f : Frame → Frame} {recs : List Frame} (hf : ∀ a ∈ recs, ∀ b ∈ recs, f a = f b → a = b) :
    dedup (recs.map f) = (dedup recs).map f := by
  induction recs with
  | nil => rfl
  | cons r rs ih =>
    have hrs := ih fun a ha b hb => hf a (List.mem_cons_of_mem r ha) b (List.mem_cons_of_mem r hb)
    have same : ∀ a ∈ dedup rs, (f a != f r) = (a != r) := by
      intro a ha
      have hiff : f a = f r ↔ a = r :=
        ⟨hf a (List.mem_cons_of_mem r (mem_dedup.1 ha)) r List.mem_cons_self, congrArg f⟩
      simp only [bne, beq_eq_decide, hiff]
    rw [List.map_cons, dedup, hrs, dedup, List.map_cons, List.filter_map]
    exact congrArg (fun l => f r :: l.map f) (List.filter_congr same)

/-- Full shares with one envelope differ in their key-shares (R186). -/
theorem eq_of_keyOf_eq {env a b : Frame} (ha : envOf a = env) (hb : envOf b = env) (h : keyOf a = keyOf b) : a = b := by
  rw [← List.take_append_drop 33 a, ← List.take_append_drop 33 b]
  exact congrArg₂ (· ++ ·) h (ha.trans hb.symm)

theorem exec_fcomb_of_validateFull (recs : List Frame) (e : Error) (s : State) (h : validateFull recs = some e) :
    exec (.fcomb recs) s = raise e s := by
  simp only [exec, execFcomb, h]

/-- Settles O32, by the outcomes of the full-share validation and of the engine. -/
theorem fcombAnswersInEveryCase : Obligations.FcombAnswersInEveryCase := by
  refine ⟨combineErrors_of_raises_validateFull exec_fcomb_of_validateFull,
    envelopeError_of_raises_validateFull exec_fcomb_of_validateFull, fun recs env s h henv hi => ?_,
    fun recs env s h henv hi => ⟨drawnBytes 32 s, length_drawnBytes 32 s, ?_⟩,
    fun recs env _ henv => dedup_map_of_injOn fun a ha b hb => eq_of_keyOf_eq (henv a ha) (henv b hb),
    listFormat_of_listCommand .fcomb⟩
  · obtain ⟨key, hkey⟩ := exists_combine_eq_some s.config.poly hi
    exact ⟨key, hkey, exec_fcomb_of_combine h henv hkey⟩
  · exact (exec_fcomb_of_sameEnvelope h henv s).trans (combineCommand_of_not_interpolable hi env s)

end Sys2Proof.Machine
end

section
/-! No command and no step stops the unit, and a command that ends in error has delivered its response and done nothing else
(60_exceptions.md R200, R205, R206). -/

namespace Sys2Proof.Machine

/-- Settles O42: every case of `exec_does` and of `step_cases` is a next state. -/
theorem everyStepHasANextState : Obligations.EveryStepHasANextState := ⟨exec_total, step_total⟩

theorem eq_of_answered_rsp {s u : State} {r r' : Frame} (hu : u.rsp = s.rsp) (h : (answered r' u).rsp = s.rsp ++ [r]) :
    r' = r := by
  simpa [hu] using h

/-- Settles O47: of the cases of `exec_does` that deliver a response, those with draws or random bytes in it are OK, and `Fail` is
the one answer of the random port that an error response takes. -/
theorem errorsHaveNoOtherEffect : Obligations.ErrorsHaveNoOtherEffect := by
  intro i s t r h hrsp herror
  have hd := exec_does i s
  rw [h] at hd
  cases hd with
  | answers r' _ =>
    obtain rfl := eq_of_answered_rsp rfl hrsp
    exact .inl rfl
  | draws n body _ =>
    obtain rfl := eq_of_answered_rsp (afterDraws_rsp n s) hrsp
    exact absurd rfl herror
  | splits body _ rest _ _ _ =>
    obtain rfl := eq_of_answered_rsp (afterAnswer_rsp rest s) hrsp
    exact absurd rfl herror
  | randomFails rest _ hs =>
    obtain rfl := eq_of_answered_rsp (afterAnswer_rsp rest s) hrsp
    exact .inr ⟨rfl, rest, hs, rfl⟩
  | waits _ => exact absurd hrsp (by simp)

end Sys2Proof.Machine
end

section
/-! Reset (70_reset_and_hazards.md R230, R231; log entry 8): it makes the unit idle and leaves the ports and the constants alone, so
the command in flight is gone and an idle unit does not notice. -/

namespace Sys2Proof.Machine

theorem reset_phase : State.reset.phase = .idle := rfl

theorem reset_rsp : State.reset.rsp = [] := rfl

theorem applyReset_of_idle {s : State} (hp : s.phase = .idle) : applyReset s = s := by
  rw [applyReset, ← hp]

/-- Settles O51, by the fields of `State.reset` and of `applyReset`. -/
theorem resetLeavesTheUnitIdle : Obligations.ResetLeavesTheUnitIdle :=
  ⟨reset_phase, reset_rsp, fun s => ⟨applyReset_phase s, applyReset_config s⟩⟩

/-- Settles O52: after the reset the unit fetches what an idle one would, the oldest waiting frame or nothing. -/
theorem resetAbandonsTheCommandInFlight : Obligations.ResetAbandonsTheCommandInFlight := by
  refine ⟨fun s f _ => ⟨applyReset_phase s, applyReset_rsp s, applyReset_config s, fun hc => ?_, fun g rest i hc hd => ?_⟩,
    fun s hp => applyReset_of_idle hp⟩
  · exact idleUnitWaitsForTheHost (applyReset s) (applyReset_phase s) hc
  · exact step_of_decode_ok (fetch_waiting (applyReset_phase s) hc) hd

/-- Settles O55: right after reset no response has been delivered and no command is in flight. -/
theorem resetMeetsTheInvariant : Obligations.ResetMeetsTheInvariant := by
  refine ⟨fun r hr => ?_, fun f hf => ?_⟩
  · rw [reset_rsp] at hr
    exact absurd hr List.not_mem_nil
  · rw [reset_phase] at hf
    exact nomatch hf

end Sys2Proof.Machine
end

section
/-! The only wait (70_reset_and_hazards.md R236; log entries 3 and 4): a split whose request has no answer stays as it is, step after
step, until the bytes it asked for are there. -/

namespace Sys2Proof.Machine

/-- A state that a step leaves as it is stays so along a run of any length. -/
theorem run_of_step_eq_self {s : State} (h : step s = .next s) (k : ℕ) : Host.Core.run Sys2Proof.core k s = .next s := by
  induction k with
  | zero => rfl
  | succ k ih => exact (run_succ_of_step k h).trans ih

theorem not_randomReady_of_rng_nil {i : Instr} {s : State} (ha : AsksRandom i) (hs : s.rng = []) : ¬ RandomReady i s := by
  simp [RandomReady, ha, hs]

/-- With nothing on the random port, a command that asks it changes nothing (R236; log entry 4). -/
theorem exec_of_rng_nil {i : Instr} {s : State} (ha : AsksRandom i) (hs : s.rng = []) : exec i s = .next s :=
  (exec_of_not_randomReady (not_randomReady_of_rng_nil ha hs)).2

/-- A command that gets the bytes it asks for answers OK (R43, R44). -/
theorem exec_of_bytes {i : Instr} {s : State} {r : Frame} {rest : List RngAnswer} (ha : AsksRandom i)
    (hs : s.rng = .bytes r :: rest) (hr : r.length = randomNeed i) :
    ∃ body, exec i s = .next (answered (0x00#8 :: body) (afterAnswer rest s)) := by
  obtain ⟨n, k, hi, hv, hk⟩ := exists_isSplit_of_asksRandom ha
  exact hi.exec_bytes hv hk hs (hr.trans (hi.randomNeed_eq hv))

/-- An answer supplied to an empty port and consumed leaves no trace. -/
theorem afterAnswer_nil_supply {s : State} (hs : s.rng = []) (a : RngAnswer) : afterAnswer [] (supply a s) = s := by
  rw [afterAnswer, ← hs]
  rfl

/-- Settles O49: without an answer the fetched split leaves the state as it is, so a busy unit stays busy along every run; the
supplied bytes are the whole of the port, and the split consumes them. -/
theorem unansweredSplitStaysBusy : Obligations.UnansweredSplitStaysBusy := by
  refine ⟨fun s f rest i hp hc hd ha hs => ?_, fun k s f i hp hd ha hs => ?_, fun s f r i hp hd ha hs hr => ?_⟩
  · exact (step_of_decode_ok (fetch_waiting hp hc) hd).trans (exec_of_rng_nil ha hs)
  · exact run_of_step_eq_self ((step_of_decode_ok (fetch_busy hp) hd).trans (exec_of_rng_nil ha hs)) k
  · have port : (supply (.bytes r) s).rng = [.bytes r] := by rw [supply_rng, hs, List.nil_append]
    obtain ⟨body, he⟩ := exec_of_bytes ha port hr
    rw [afterAnswer_nil_supply hs] at he
    have fetched : fetch (supply (.bytes r) s) = some (f, supply (.bytes r) s) := fetch_busy hp
    exact ⟨body, (step_of_decode_ok fetched hd).trans he⟩

end Sys2Proof.Machine
end
